-- ==== Sys2Proof/Word.lean ====
section
/-! DEFINITION. The words of the block: bytes of `BUF` (R4, R30) and 64-bit registers, operands and results (R5). -/

namespace Sys2Proof

/-- One byte of `BUF`: 8 bits (R4). -/
abbrev Byte := BitVec 8

/-- The width of a cursor register, of an operand `A` or `B` and of `RESULT` (R5). -/
abbrev Word := BitVec 64

end Sys2Proof
end

