-- ==== Sys2Proof/Syntax.lean ====
section
/-! DEFINITION. The command record (R50) and the 23 commands (R53), one constructor per row of the opcode table. -/

namespace Sys2Proof

/-- One command record as the command channel carries it: `{CW[15:0], A[63:0], B[63:0]}` (R50). -/
structure Record where
  /-- The control word. -/
  cw : BitVec 16
  /-- Operand `A`. -/
  a : Word
  /-- Operand `B`. -/
  b : Word
  deriving DecidableEq, Repr

/-- The commands, with the operands each uses (R54), in the assembler's order (R60). `n` is the requested field width
`n_bits`, a count; the record has 8 bits for it (R51), which `Instr.wellFormed` asks. `value` is operand `A` whole:
which of its bits count is said by the command's meaning (R59). -/
inductive Instr where
  /-- R100: `PINIT base, capacity_bits`. -/
  | pinit (base cap : Word)
  /-- R101: `SKIP n_bits`, the count in `A`. -/
  | skip (count : Word)
  /-- R102. -/
  | extractU8 (n : Nat)
  /-- R103. -/
  | extractU16 (n : Nat)
  /-- R104. -/
  | extractU32 (n : Nat)
  /-- R105. -/
  | extractU64 (n : Nat)
  /-- R106. -/
  | extractI8 (n : Nat)
  /-- R107. -/
  | extractI16 (n : Nat)
  /-- R108. -/
  | extractI32 (n : Nat)
  /-- R109. -/
  | extractI64 (n : Nat)
  /-- R110. -/
  | extractFloat
  /-- R111. -/
  | extractDouble
  /-- R120: `KINIT base, capacity_bits, z`; `z` is the `zero_fill` flag. -/
  | kinit (base cap : Word) (z : Bool)
  /-- R121. -/
  | addU8 (value : Word) (n : Nat)
  /-- R122. -/
  | addU16 (value : Word) (n : Nat)
  /-- R123. -/
  | addU32 (value : Word) (n : Nat)
  /-- R124. -/
  | addU64 (value : Word) (n : Nat)
  /-- R125. -/
  | addI8 (value : Word) (n : Nat)
  /-- R126. -/
  | addI16 (value : Word) (n : Nat)
  /-- R127. -/
  | addI32 (value : Word) (n : Nat)
  /-- R128. -/
  | addI64 (value : Word) (n : Nat)
  /-- R129: the float32 pattern in `A[31:0]`. -/
  | addFloat (pattern : Word)
  /-- R130: the float64 pattern in `A`. -/
  | addDouble (pattern : Word)
  deriving DecidableEq, Repr

/-- The command's mnemonic in the opcode table (R53, R60). -/
def Instr.mnemonic : Instr → String
  | .pinit _ _ => "PINIT"
  | .skip _ => "SKIP"
  | .extractU8 _ => "EXTRACT_U8"
  | .extractU16 _ => "EXTRACT_U16"
  | .extractU32 _ => "EXTRACT_U32"
  | .extractU64 _ => "EXTRACT_U64"
  | .extractI8 _ => "EXTRACT_I8"
  | .extractI16 _ => "EXTRACT_I16"
  | .extractI32 _ => "EXTRACT_I32"
  | .extractI64 _ => "EXTRACT_I64"
  | .extractFloat => "EXTRACT_FLOAT"
  | .extractDouble => "EXTRACT_DOUBLE"
  | .kinit _ _ _ => "KINIT"
  | .addU8 _ _ => "ADD_U8"
  | .addU16 _ _ => "ADD_U16"
  | .addU32 _ _ => "ADD_U32"
  | .addU64 _ _ => "ADD_U64"
  | .addI8 _ _ => "ADD_I8"
  | .addI16 _ _ => "ADD_I16"
  | .addI32 _ _ => "ADD_I32"
  | .addI64 _ _ => "ADD_I64"
  | .addFloat _ => "ADD_FLOAT"
  | .addDouble _ => "ADD_DOUBLE"

end Sys2Proof
end

