-- ==== Sys2Proof/WellFormed.lean ====
section
/-! DEFINITION. Which commands a record can carry: the requested width of an integer transfer must fit `N` (R51, R60). -/

namespace Sys2Proof

/-- R51, R60: `n_bits` on an integer transfer must be 0 to 255 to be encodable. Widths the field-width check of R72
rejects are encodable all the same. -/
def encodableWidth (n : Nat) : Bool := decide (n ≤ 255)

/-- A command is well-formed when a record can carry it. Every operand that is a `Word` fits `A` or `B` as it is. -/
def Instr.wellFormed : Instr → Bool
  | .pinit _ _ => true
  | .skip _ => true
  | .extractU8 n => encodableWidth n
  | .extractU16 n => encodableWidth n
  | .extractU32 n => encodableWidth n
  | .extractU64 n => encodableWidth n
  | .extractI8 n => encodableWidth n
  | .extractI16 n => encodableWidth n
  | .extractI32 n => encodableWidth n
  | .extractI64 n => encodableWidth n
  | .extractFloat => true
  | .extractDouble => true
  | .kinit _ _ _ => true
  | .addU8 _ n => encodableWidth n
  | .addU16 _ n => encodableWidth n
  | .addU32 _ n => encodableWidth n
  | .addU64 _ n => encodableWidth n
  | .addI8 _ n => encodableWidth n
  | .addI16 _ n => encodableWidth n
  | .addI32 _ n => encodableWidth n
  | .addI64 _ n => encodableWidth n
  | .addFloat _ => true
  | .addDouble _ => true

end Sys2Proof
end

