-- ==== Sys2Proof/Decode.lean ====
section
/-! DEFINITION. Decoding a command record (R50 to R56), the encoder, the opcode table (R53) and the assembler's text
form (R60). -/

namespace Sys2Proof

/-! ### The control word's fields (R51) -/

/-- `CW[15]`, the unit: false = parser cursor P, true = packer cursor K. -/
def Record.unitK (r : Record) : Bool := r.cw.getLsbD 15

/-- `CW[14:12]`, the class. -/
def Record.cls (r : Record) : Nat := (r.cw.extractLsb' 12 3).toNat

/-- `CW[11]`, which must be 0. -/
def Record.bit11 (r : Record) : Bool := r.cw.getLsbD 11

/-- `CW[10]`: `S` on an integer transfer, `Z` on a packer INIT. -/
def Record.flagSZ (r : Record) : Bool := r.cw.getLsbD 10

/-- `CW[9:8]`, the type width: `W = 8 * 2^SZ`. -/
def Record.sz (r : Record) : Nat := (r.cw.extractLsb' 8 2).toNat

/-- `CW[7:0]`, the requested width of an integer transfer. -/
def Record.nBits (r : Record) : Nat := (r.cw.extractLsb' 0 8).toNat

/-! ### Decoding -/

/-- Why a control word is illegal (R55); the names are the model's (log 19), and all are answered alike (R56). -/
inductive Illegal where
  /-- `CLS` 100 to 111. -/
  | reservedClass
  /-- `CW[11] = 1`. -/
  | bit11Set
  /-- `CLS = 001` with `U = 1`: there is no packer SKIP. -/
  | packerSkip
  /-- `S/Z = 1` where no `S` or `Z` is defined. -/
  | flagSet
  /-- `SZ` not 00 on INIT or SKIP. -/
  | sizeSet
  /-- `SZ` 00 or 01 on a float transfer. -/
  | floatSize
  /-- `N` not 0 on a command other than an integer transfer. -/
  | widthSet
  /-- The bytes are not one record of 18 bytes (R50). -/
  | notOneRecord
  deriving DecidableEq, Repr

/-- What a record decodes to. -/
inductive Decoded where
  | instr (i : Instr)
  | illegal (why : Illegal)
  deriving DecidableEq, Repr

/-- An INIT (`CLS` = 000): only KINIT has the flag `Z` (R51, R55). -/
def decodeInit (r : Record) : Decoded :=
  if r.sz ≠ 0 then .illegal .sizeSet
  else if r.nBits ≠ 0 then .illegal .widthSet
  else if r.unitK then .instr (.kinit r.b r.a r.flagSZ)
  else if r.flagSZ then .illegal .flagSet
  else .instr (.pinit r.b r.a)

/-- SKIP (`CLS` = 001), parser only (R53, R55). -/
def decodeSkip (r : Record) : Decoded :=
  if r.unitK then .illegal .packerSkip
  else if r.flagSZ then .illegal .flagSet
  else if r.sz ≠ 0 then .illegal .sizeSet
  else if r.nBits ≠ 0 then .illegal .widthSet
  else .instr (.skip r.a)

/-- An integer transfer (`CLS` = 010): unit, signedness and width class pick the command (R51, R52). -/
def decodeInteger (r : Record) : Decoded :=
  match r.unitK, r.flagSZ, r.sz with
  | false, false, 0 => .instr (.extractU8 r.nBits)
  | false, false, 1 => .instr (.extractU16 r.nBits)
  | false, false, 2 => .instr (.extractU32 r.nBits)
  | false, false, _ => .instr (.extractU64 r.nBits)
  | false, true, 0 => .instr (.extractI8 r.nBits)
  | false, true, 1 => .instr (.extractI16 r.nBits)
  | false, true, 2 => .instr (.extractI32 r.nBits)
  | false, true, _ => .instr (.extractI64 r.nBits)
  | true, false, 0 => .instr (.addU8 r.a r.nBits)
  | true, false, 1 => .instr (.addU16 r.a r.nBits)
  | true, false, 2 => .instr (.addU32 r.a r.nBits)
  | true, false, _ => .instr (.addU64 r.a r.nBits)
  | true, true, 0 => .instr (.addI8 r.a r.nBits)
  | true, true, 1 => .instr (.addI16 r.a r.nBits)
  | true, true, 2 => .instr (.addI32 r.a r.nBits)
  | true, true, _ => .instr (.addI64 r.a r.nBits)

/-- A float transfer (`CLS` = 011): `SZ` 10 or 11 only, `N` and `S` zero (R51, R52, R55). -/
def decodeFloat (r : Record) : Decoded :=
  if r.flagSZ then .illegal .flagSet
  else if r.nBits ≠ 0 then .illegal .widthSet
  else match r.sz with
    | 0 => .illegal .floatSize
    | 1 => .illegal .floatSize
    | 2 => if r.unitK then .instr (.addFloat r.a) else .instr .extractFloat
    | _ => if r.unitK then .instr (.addDouble r.a) else .instr .extractDouble

/-- The decoder (R51 to R55), total on every record. -/
def decode (r : Record) : Decoded :=
  if r.bit11 then .illegal .bit11Set
  else match r.cls with
    | 0 => decodeInit r
    | 1 => decodeSkip r
    | 2 => decodeInteger r
    | 3 => decodeFloat r
    | _ => .illegal .reservedClass

/-! ### The record as one bit vector and as bytes (R50) -/

/-- `{CW, A, B}`, `CW` most significant. -/
def Record.toBits (r : Record) : BitVec 144 := r.cw ++ r.a ++ r.b

/-- The record whose bit vector is `v`. -/
def Record.ofBits (v : BitVec 144) : Record :=
  { cw := v.extractLsb' 128 16, a := v.extractLsb' 64 64, b := v.extractLsb' 0 64 }

/-- The low `8 * count` bits of `v` as bytes, the most significant first. -/
def beBytes : (count v : Nat) → List Byte
  | 0, _ => []
  | count + 1, v => BitVec.ofNat 8 (v / 256 ^ count) :: beBytes count v

/-- The number that bytes stand for, the most significant first. -/
def beNat : List Byte → Nat
  | [] => 0
  | b :: bs => b.toNat * 256 ^ bs.length + beNat bs

/-- The record as 18 bytes in big-endian order, `CW[15:8]` first. -/
def Record.toBytes (r : Record) : List Byte :=
  beBytes 2 r.cw.toNat ++ beBytes 8 r.a.toNat ++ beBytes 8 r.b.toNat

/-- The record that 18 bytes carry. -/
def Record.ofBytes (bs : List Byte) : Option Record :=
  if bs.length = 18 then
    some { cw := BitVec.ofNat 16 (beNat (bs.take 2)),
           a := BitVec.ofNat 64 (beNat ((bs.drop 2).take 8)),
           b := BitVec.ofNat 64 (beNat (bs.drop 10)) }
  else none

/-- Decoding from bytes: one record, no other length (R50, R61). -/
def decodeBytes (bs : List Byte) : Decoded :=
  match Record.ofBytes bs with
  | some r => decode r
  | none => .illegal .notOneRecord

/-! ### Encoding (R51, R53, R54) -/

/-- A control word from its opcode byte `CW[15:8]` and the requested width. -/
def controlWord (op : BitVec 8) (n : Nat) : BitVec 16 := op ++ BitVec.ofNat 8 n

/-- The record of a command, written from the opcode map of R53; an operand the command does not use is 0 (R54). -/
def encode : Instr → Record
  | .pinit base cap => ⟨controlWord 0x00#8 0, cap, base⟩
  | .skip count => ⟨controlWord 0x10#8 0, count, 0⟩
  | .extractU8 n => ⟨controlWord 0x20#8 n, 0, 0⟩
  | .extractU16 n => ⟨controlWord 0x21#8 n, 0, 0⟩
  | .extractU32 n => ⟨controlWord 0x22#8 n, 0, 0⟩
  | .extractU64 n => ⟨controlWord 0x23#8 n, 0, 0⟩
  | .extractI8 n => ⟨controlWord 0x24#8 n, 0, 0⟩
  | .extractI16 n => ⟨controlWord 0x25#8 n, 0, 0⟩
  | .extractI32 n => ⟨controlWord 0x26#8 n, 0, 0⟩
  | .extractI64 n => ⟨controlWord 0x27#8 n, 0, 0⟩
  | .extractFloat => ⟨controlWord 0x32#8 0, 0, 0⟩
  | .extractDouble => ⟨controlWord 0x33#8 0, 0, 0⟩
  | .kinit base cap z => ⟨controlWord (if z then 0x84#8 else 0x80#8) 0, cap, base⟩
  | .addU8 value n => ⟨controlWord 0xA0#8 n, value, 0⟩
  | .addU16 value n => ⟨controlWord 0xA1#8 n, value, 0⟩
  | .addU32 value n => ⟨controlWord 0xA2#8 n, value, 0⟩
  | .addU64 value n => ⟨controlWord 0xA3#8 n, value, 0⟩
  | .addI8 value n => ⟨controlWord 0xA4#8 n, value, 0⟩
  | .addI16 value n => ⟨controlWord 0xA5#8 n, value, 0⟩
  | .addI32 value n => ⟨controlWord 0xA6#8 n, value, 0⟩
  | .addI64 value n => ⟨controlWord 0xA7#8 n, value, 0⟩
  | .addFloat pattern => ⟨controlWord 0xB2#8 0, pattern, 0⟩
  | .addDouble pattern => ⟨controlWord 0xB3#8 0, pattern, 0⟩

/-! ### The opcode table (R53) -/

/-- One row of the opcode map: a control word `cw` is this command when `cw & mask = match`. -/
structure OpcodeRow where
  mnemonic : String
  mask : BitVec 16
  pattern : BitVec 16
  deriving DecidableEq, Repr

/-- The row matches the control word. -/
def OpcodeRow.hits (row : OpcodeRow) (cw : BitVec 16) : Bool := cw &&& row.mask == row.pattern

/-- The parser's rows of R53. -/
def parserRows : List OpcodeRow :=
  [⟨"PINIT", 0xFFFF, 0x0000⟩, ⟨"SKIP", 0xFFFF, 0x1000⟩,
   ⟨"EXTRACT_U8", 0xFF00, 0x2000⟩, ⟨"EXTRACT_U16", 0xFF00, 0x2100⟩,
   ⟨"EXTRACT_U32", 0xFF00, 0x2200⟩, ⟨"EXTRACT_U64", 0xFF00, 0x2300⟩,
   ⟨"EXTRACT_I8", 0xFF00, 0x2400⟩, ⟨"EXTRACT_I16", 0xFF00, 0x2500⟩,
   ⟨"EXTRACT_I32", 0xFF00, 0x2600⟩, ⟨"EXTRACT_I64", 0xFF00, 0x2700⟩,
   ⟨"EXTRACT_FLOAT", 0xFFFF, 0x3200⟩, ⟨"EXTRACT_DOUBLE", 0xFFFF, 0x3300⟩]

/-- The packer's rows of R53. -/
def packerRows : List OpcodeRow :=
  [⟨"KINIT", 0xFBFF, 0x8000⟩,
   ⟨"ADD_U8", 0xFF00, 0xA000⟩, ⟨"ADD_U16", 0xFF00, 0xA100⟩,
   ⟨"ADD_U32", 0xFF00, 0xA200⟩, ⟨"ADD_U64", 0xFF00, 0xA300⟩,
   ⟨"ADD_I8", 0xFF00, 0xA400⟩, ⟨"ADD_I16", 0xFF00, 0xA500⟩,
   ⟨"ADD_I32", 0xFF00, 0xA600⟩, ⟨"ADD_I64", 0xFF00, 0xA700⟩,
   ⟨"ADD_FLOAT", 0xFFFF, 0xB200⟩, ⟨"ADD_DOUBLE", 0xFFFF, 0xB300⟩]

/-- The 23 rows of R53. -/
def opcodeTable : List OpcodeRow := parserRows ++ packerRows

/-! ### The assembler (R60) -/

/-- R60: a `value` operand as the assembler puts it into `A`: the `w`-bit pattern of the number, zero-extended. -/
def asmValue (w : Nat) (z : Int) : Word := (BitVec.ofInt w z).setWidth 64

/-- R60: the assembler emits a record for a command it can encode and rejects any other. -/
def assemble (i : Instr) : Option Record := if i.wellFormed then some (encode i) else none

/-- The command as one line of assembler text, `MNEMONIC operand, operand, ...`, numbers in decimal (R60). -/
def Instr.asm (i : Instr) : String :=
  let line := fun (ops : List Nat) => i.mnemonic ++ " " ++ String.intercalate ", " (ops.map toString)
  match i with
  | .pinit base cap => line [base.toNat, cap.toNat]
  | .skip count => line [count.toNat]
  | .extractU8 n => line [n]
  | .extractU16 n => line [n]
  | .extractU32 n => line [n]
  | .extractU64 n => line [n]
  | .extractI8 n => line [n]
  | .extractI16 n => line [n]
  | .extractI32 n => line [n]
  | .extractI64 n => line [n]
  | .extractFloat => i.mnemonic
  | .extractDouble => i.mnemonic
  | .kinit base cap z => line [base.toNat, cap.toNat, z.toNat]
  | .addU8 value n => line [value.toNat, n]
  | .addU16 value n => line [value.toNat, n]
  | .addU32 value n => line [value.toNat, n]
  | .addU64 value n => line [value.toNat, n]
  | .addI8 value n => line [value.toNat, n]
  | .addI16 value n => line [value.toNat, n]
  | .addI32 value n => line [value.toNat, n]
  | .addI64 value n => line [value.toNat, n]
  | .addFloat pattern => line [pattern.toNat]
  | .addDouble pattern => line [pattern.toNat]

/-! ### The host's word -/

/-- The record whose bits are those of `w`, numbered as the opcode table numbers them: the control word first, then
`A`, then `B`; bits from `nbits` up are 0 (log 18). -/
def Record.ofTableWord (nbits w : Nat) : Record :=
  let v := w % 2 ^ nbits
  { cw := BitVec.ofNat 16 v, a := BitVec.ofNat 64 (v / 2 ^ 16), b := BitVec.ofNat 64 (v / 2 ^ 80) }

/-- The command the decoder reads from that record, laid out as the channel's 18 bytes. -/
def decodeTableWord (nbits w : Nat) : Option Instr :=
  match decodeBytes (Record.ofTableWord nbits w).toBytes with
  | .instr i => some i
  | .illegal _ => none

end Sys2Proof
end

