-- ==== Sys2Proof/Config.lean ====
section
/-! DEFINITION. The parameters fixed when the block is built (R6). They are no state of the hardware: the step
function takes them as an argument, which `State.cfg` carries (assumption log 1). -/

namespace Sys2Proof

/-- The named parameters the spec leaves open (R6). -/
structure Config where
  /-- `BUF_BYTES`: how many bytes `BUF` has, 0 to 2^64. -/
  bufBytes : Nat
  /-- `CHK_BOUNDS`: the buffer-boundary check is enabled. -/
  chkBounds : Bool
  /-- `CHK_WIDTH`: the field-width check is enabled. -/
  chkWidth : Bool
  /-- `CHK_RANGE`: the value-range check is enabled. -/
  chkRange : Bool
  deriving DecidableEq, Repr

namespace Config

/-- R6: `0 <= BUF_BYTES <= 2^64`. -/
abbrev wf (c : Config) : Prop := c.bufBytes ≤ 2 ^ 64

/-- The block `State.reset` describes: all three checks enabled (R6's default), and the largest `BUF` that R6 admits
(DESIGN CHOICE, unsafe, log 2: the spec leaves `BUF_BYTES` open). -/
def default : Config := { bufBytes := 2 ^ 64, chkBounds := true, chkWidth := true, chkRange := true }

end Config

/-- What a byte of `BUF` that nothing has written reads as (DESIGN CHOICE, unsafe, log 3: R21 and R161 leave the
contents of `BUF` at power-up unspecified, an input of the launch). -/
def unlistedByte : Byte := 0x00#8

end Sys2Proof
end

