-- ==== Sys2Proof/Machine/State.lean ====
section
/-! DEFINITION. The state of the machine (R10), the ways a step can stop, and the state after reset (R21). -/

namespace Sys2Proof.Machine

/-- The three registers of a cursor (R10): `BASE` (R14), `CAP` in bits (R11), `POS` in bits (R12). -/
structure Cursor where
  base : Word
  cap : Word
  pos : Word
  deriving DecidableEq, Repr

/-- A cursor after reset: all registers 0 (R21). -/
def Cursor.zero : Cursor := { base := 0, cap := 0, pos := 0 }

/-- The status of a response; there are exactly three (R57, R140). -/
inductive Status where
  | ok
  /-- Insufficient remaining bits (R141). -/
  | efull
  /-- Illegal word, illegal width, or value out of range (R142). -/
  | einvalidArg
  deriving DecidableEq, Repr

/-- One response record `{STATUS, RESULT}` (R57). -/
structure Response where
  status : Status
  result : Word
  deriving DecidableEq, Repr

/-- What the host does to the block between commands (log 4, log 7). -/
inductive HostAction where
  /-- A command record on the command channel (R50, R62). -/
  | command (r : Record)
  /-- The reset input is asserted (R160). -/
  | reset
  /-- The host writes a byte of `BUF` (R43). -/
  | write (address : Nat) (value : Byte)
  deriving DecidableEq, Repr

/-- The bytes of `BUF` (R30): address and byte, in the canonical form `Memory.wf`. -/
abbrev Memory := List Host.Cell

/-- The state: the two cursors and `BUF` are the hardware's (R10); the parameters (R6; log 1) and the two channels
(R62; log 4, log 6) are the model's own fields. -/
structure State where
  /-- The parameters fixed when the block was built; no step changes them. -/
  cfg : Config
  /-- The parser cursor P. -/
  p : Cursor
  /-- The packer cursor K. -/
  k : Cursor
  /-- The buffer memory. -/
  buf : Memory
  /-- What the host has put to the block and the block has not taken, oldest first. -/
  inbox : List HostAction
  /-- The responses the block has given, oldest first. -/
  outbox : List Response
  deriving DecidableEq, Repr

/-- Machine faults. There are none: the block raises no exception and takes no trap (R140), so this type has no
constructor (log 21). -/
inductive Fault where
  deriving DecidableEq, Repr

/-- Why the model gives a step no next state. -/
inductive Refusal where
  /-- Raised by exec's arm of a command that has no meaning yet; safe. -/
  | notModelled (mnemonic : String)
  /-- Raised by an integer transfer with `n = 0` or `n > W` while `CHK_WIDTH = 0`: undefined, the model must refuse
  (R87, U1); safe. -/
  | widthUnchecked
  /-- Raised by SKIP, EXTRACT_* and ADD_* asking for more bits than remain while `CHK_BOUNDS = 0`: undefined, the model
  must refuse (R87, U2); safe. -/
  | boundsUnchecked
  /-- Raised by EXTRACT_*, ADD_* and a zero-filling KINIT that would use a byte at or above `BUF_BYTES`: undefined, the
  model must refuse (R39, U4); safe. -/
  | outsideBuf
  /-- Raised by a host write at or above `BUF_BYTES`, where there is no byte (R30; log 8); safe. -/
  | hostWriteOutsideBuf
  deriving DecidableEq, Repr

/-- The block when it is started: its parameters, and the contents of `BUF`, which are an input of the launch (R6, R21,
R161). -/
def State.launch (cfg : Config) (buf : Memory) : State :=
  { cfg := cfg, p := Cursor.zero, k := Cursor.zero, buf := buf, inbox := [], outbox := [] }

/-- The machine right after reset (R21): both cursors 0, `BUF` with nothing listed, the default parameters. -/
def State.reset : State := State.launch Config.default []

end Sys2Proof.Machine
end

