-- ==== Sys2Proof/Machine/Ops.lean ====
section
/-! DEFINITION. The named operations over `BUF`, the cursor registers and the channels. Every byte of `BUF` is read and
written here, and every response and every failing command goes through `State.respond`. -/

namespace Sys2Proof.Machine

/-- What one step or one meaning answers. -/
abbrev Answer := Host.Outcome State Fault Refusal

/-! ### Bytes of `BUF` (R30) -/

/-- `BUF[a]`. -/
def Memory.read : Memory → Nat → Byte
  | [], _ => unlistedByte
  | (k, v) :: rest, a => if k = a then v else Memory.read rest a

/-- The list with a cell put before the first cell of a larger address. -/
def Memory.insertCell (a : Nat) (v : Byte) : Memory → Memory
  | [] => [(a, v)]
  | (k, w) :: rest => if a < k then (a, v) :: (k, w) :: rest else (k, w) :: Memory.insertCell a v rest

/-- The list without any cell of the addresses `a` to `a + count - 1`. -/
def Memory.dropCells (m : Memory) (a count : Nat) : Memory := m.filter (fun c => !(decide (a ≤ c.1) && decide (c.1 < a + count)))

/-- `BUF[a] <- v`, keeping the canonical form: a byte that reads as an unlisted one is not listed. -/
def Memory.write (m : Memory) (a : Nat) (v : Byte) : Memory :=
  if v = unlistedByte then m.dropCells a 1 else Memory.insertCell a v (m.dropCells a 1)

/-- The canonical form: addresses strictly rising, no cell that reads as an unlisted byte. -/
abbrev Memory.wf (m : Memory) : Prop :=
  m.Pairwise (fun x y => x.1 < y.1) ∧ ∀ c ∈ m, c.2 ≠ unlistedByte

/-- No byte outside `BUF` is listed (R30: addresses 0 to `BUF_BYTES - 1`). -/
abbrev Memory.within (m : Memory) (bufBytes : Nat) : Prop := ∀ c ∈ m, c.1 < bufBytes

/-- `MemOr(a, x)` (R9): the only way an insertion writes. -/
def Memory.orByte (m : Memory) (a : Nat) (x : Byte) : Memory := m.write a (m.read a ||| x)

/-- `m` bytes from `a` on as a number, `BUF[a]` the most significant (R9 `MemRead`, R32), over any byte-valued view. -/
def bytesBE (lane : Nat → Byte) : (a count : Nat) → Nat
  | _, 0 => 0
  | a, count + 1 => (lane a).toNat * 256 ^ count + bytesBE lane (a + 1) count

/-- `MemRead(a, m)` (R9, R32). -/
def Memory.readBE (m : Memory) (a count : Nat) : Nat := bytesBE m.read a count

/-- `MemWrite(a, m, v)` (R9, R32): the most significant byte at the lowest address. -/
def Memory.writeBE (m : Memory) : (a count v : Nat) → Memory
  | _, 0, _ => m
  | a, count + 1, v => Memory.writeBE (m.write a (BitVec.ofNat 8 (v / 256 ^ count))) (a + 1) count v

/-- The zero-fill of R120: `count` bytes from `a` on read as 0. Since an unlisted byte reads as 0 (log 3), dropping the
cells is the loop `MemWrite(a + j, 1, 0x00)`, whatever `count` (log 16). -/
def Memory.zeroFill (m : Memory) (a count : Nat) : Memory := m.dropCells a count

/-- That loop, as R120 writes it: `for j := 0 .. count - 1 do MemWrite(a + j, 1, 0x00)`. -/
def Memory.zeroFillLoop (m : Memory) : (a count : Nat) → Memory
  | _, 0 => m
  | a, count + 1 => Memory.zeroFillLoop (m.writeBE a 1 0) (a + 1) count

/-! ### Cursors -/

/-- `ceil8` (R8): the bytes that hold `x` bits. -/
def ceil8 (x : Nat) : Nat := (x + 7) / 8

/-- `Remaining(c) = c.CAP - c.POS` (R70). In a state with `POS > CAP`, which no run reaches, it is 0 (log 13). -/
def Cursor.remaining (c : Cursor) : Nat := c.cap.toNat - c.pos.toNat

/-- `c.POS <- c.POS + n` (R84). -/
def Cursor.advance (c : Cursor) (n : Nat) : Cursor := { c with pos := BitVec.ofNat 64 (c.pos.toNat + n) }

/-- INIT binds the cursor to a view and sets `POS` to 0 (R23). -/
def Cursor.bind (base cap : Word) : Cursor := { base := base, cap := cap, pos := 0 }

/-- R16: Ready. -/
abbrev Cursor.ready (c : Cursor) : Prop := c.pos.toNat < c.cap.toNat

/-- R16: Exhausted. -/
abbrev Cursor.exhausted (c : Cursor) : Prop := c.pos = c.cap

/-- R39: the view lies inside `BUF`. -/
abbrev Cursor.contained (c : Cursor) (bufBytes : Nat) : Prop := c.base.toNat + ceil8 c.cap.toNat ≤ bufBytes

/-! ### Responses (R57, R58) -/

/-- The numeric status code (R57): the value 3 is never produced. -/
def Status.code : Status → BitVec 2
  | .ok => 0
  | .efull => 1
  | .einvalidArg => 2

/-- The response record's 66 bits, `STATUS` most significant (R57). -/
def Response.toBits (r : Response) : BitVec 66 := r.status.code ++ r.result

/-- `respond(S, r)` (R9): one response goes out, behind the earlier ones (R57, R63). -/
def State.respond (s : State) (status : Status) (result : Word) : State :=
  { s with outbox := s.outbox ++ [⟨status, result⟩] }

/-- What every failing command does, and all it does (R58, R144): it answers its status with `RESULT = 0`; registers and
`BUF` stay, nothing is saved anywhere. The block has no trap to take (R140). -/
def State.reject (s : State) (status : Status) : State := s.respond status 0

/-! ### The host's side (R43, R160, R161) -/

/-- The reset input: the six registers to 0; `BUF` is not touched and no response is given (R21, R160, R161). -/
def State.assertReset (s : State) : State := { s with p := Cursor.zero, k := Cursor.zero }

/-- The host writes a byte of `BUF` between commands (R43); there is no byte at or above `BUF_BYTES` (R30; log 8). -/
def State.hostWrite (s : State) (a : Nat) (v : Byte) : Answer :=
  if a < s.cfg.bufBytes then .next { s with buf := s.buf.write a v } else .refused .hostWriteOutsideBuf

/-- The host reads a byte of `BUF` between commands (R43): no effect on the block (R30). -/
def State.hostRead (s : State) (a : Nat) : Option Byte :=
  if a < s.cfg.bufBytes then some (s.buf.read a) else none

/-! ### An illegal command -/

/-- R56: an illegal command is answered `EINVALID_ARG`, 0, whatever the parameters; it changes and reads nothing else. -/
def execIllegal (s : State) : Answer := .next (s.reject .einvalidArg)

end Sys2Proof.Machine
end

