-- ==== Sys2Proof/Machine/Operands.lean ====
section
/-! DEFINITION. The operand forms and result forms: the typed `value` of an ADD (R59), its range (R73), the field
inserted (R89), sign extension (R8, R79) and the layout of `RESULT` (R58). -/

namespace Sys2Proof.Machine

/-- `sext_n(u)` (R8): the integer whose `n`-bit two's-complement pattern is `u`. -/
def sext (n u : Nat) : Int := if u.testBit (n - 1) then (u : Int) - 2 ^ n else u

/-- The natural number `A[W-1:0]` (R59); the bits from `W` up are ignored. -/
def lowBits (w : Nat) (a : Word) : Nat := a.toNat % 2 ^ w

/-- The value of a signed operand of width `w`: `as_signed_W(A[W-1:0])` (R8, R59). -/
def asSigned (w : Nat) (a : Word) : Int := sext w (lowBits w a)

/-- `RangeOK(S, v, n, W)` (R73), for `1 <= n <= W`. -/
def rangeOK (signed : Bool) (w n : Nat) (a : Word) : Bool :=
  if signed then decide (-(2 ^ (n - 1) : Int) ≤ asSigned w a) && decide (asSigned w a ≤ 2 ^ (n - 1) - 1)
  else decide (lowBits w a ≤ 2 ^ n - 1)

/-- The field an integer ADD writes: `u = A[W-1:0] mod 2^n` (R89). -/
def fieldOf (w n : Nat) (a : Word) : Nat := lowBits w a % 2 ^ n

/-- `RESULT` of a successful extraction (R58): zero-extended, or `to_bits_64(sext_n(r))` for a signed type. -/
def resultOf (signed : Bool) (n r : Nat) : Word :=
  if signed then BitVec.ofInt 64 (sext n r) else BitVec.ofNat 64 r

end Sys2Proof.Machine
end

