-- ==== Sys2Proof/Machine/Flags.lean ====
section
/-! DEFINITION. The block has no flags (R17); what a command reports is its status. This file computes it: the three
checks and their order (R71 to R74, R143), and what a disabled check lets through (R87). -/

namespace Sys2Proof.Machine

/-- What a check says. -/
inductive Verdict where
  /-- The check passes, or is disabled where that is defined. -/
  | pass
  /-- The command fails with this status. -/
  | fail (status : Status)
  /-- The check is disabled and the command would have failed it: no defined behaviour (R87). -/
  | undefined (why : Refusal)
  deriving DecidableEq, Repr

/-- The first check that does not pass decides (R74). -/
def Verdict.andThen : Verdict → Verdict → Verdict
  | .pass, v => v
  | .fail st, _ => .fail st
  | .undefined r, _ => .undefined r

/-- The field-width check (R72): `1 <= n <= W`. With `CHK_WIDTH = 0` an illegal width is undefined (R87, U1; log 9). -/
def checkWidth (cfg : Config) (w n : Nat) : Verdict :=
  if 1 ≤ n ∧ n ≤ w then .pass
  else if cfg.chkWidth then .fail .einvalidArg else .undefined .widthUnchecked

/-- The buffer-boundary check (R71): `n <= Remaining(c)`. With `CHK_BOUNDS = 0` a request that does not fit is undefined
(R87, U2; log 9). -/
def checkBounds (cfg : Config) (c : Cursor) (n : Nat) : Verdict :=
  if n ≤ c.remaining then .pass
  else if cfg.chkBounds then .fail .efull else .undefined .boundsUnchecked

/-- The value-range check (R73). With `CHK_RANGE = 0` a value out of range passes, to be truncated (R87, R89). -/
def checkRange (cfg : Config) (signed : Bool) (w n : Nat) (a : Word) : Verdict :=
  if rangeOK signed w n a then .pass
  else if cfg.chkRange then .fail .einvalidArg else .pass

/-- `Check` of R74 for an integer EXTRACT: (a) width, (b) capacity. -/
def checkExtract (cfg : Config) (c : Cursor) (w n : Nat) : Verdict :=
  (checkWidth cfg w n).andThen (checkBounds cfg c n)

/-- `Check` of R74 for an integer ADD: (a) width, (b) capacity, (c) range. -/
def checkAdd (cfg : Config) (c : Cursor) (signed : Bool) (w n : Nat) (a : Word) : Verdict :=
  (checkWidth cfg w n).andThen ((checkBounds cfg c n).andThen (checkRange cfg signed w n a))

/-- A command after its checks: it runs, or fails without effect (R144), or is refused (R87). -/
def guarded (v : Verdict) (s : State) (run : Answer) : Answer :=
  match v with
  | .pass => run
  | .fail status => .next (s.reject status)
  | .undefined why => .refused why

end Sys2Proof.Machine
end

