-- ==== Sys2Proof/Machine/BitWindow.lean ====
section
/-! DEFINITION. The shared primitive: the bit stream of a view (R31), the window value (R75) and the insert effect
(R80), which the commands use, and beside them the datapaths that realise them: word fetch, barrel shift and splice
(R76), chunk splice (R81) and decomposition into chunks (R82). -/

namespace Sys2Proof.Machine

/-! ### The bit stream of a view -/

/-- Stream bit `k` of the bytes `lane`: bit `7 - k mod 8` of byte `k div 8` (R31). -/
def laneBit (lane : Nat → Byte) (k : Nat) : Bool := (lane (k / 8)).getLsbD (7 - k % 8)

/-- The bytes of the view at `base`: view byte `j` is `BUF[base + j]`, the sum exact (R31). -/
def Memory.viewByte (m : Memory) (base j : Nat) : Byte := m.read (base + j)

/-- `ViewBit(c, k)` for a cursor with `BASE = base` (R31). -/
def Memory.viewBit (m : Memory) (base k : Nat) : Bool := laneBit (m.viewByte base) k

/-- `a` is in `Footprint(c, p, n)` (R35): the bytes that hold a bit of the window, for `n >= 1`. -/
abbrev inFootprint (base p n a : Nat) : Prop := base + p / 8 ≤ a ∧ a ≤ base + (p + n - 1) / 8

/-- The footprint of the next `n` bits of a cursor lies in `BUF` (R35, R39). -/
abbrev Cursor.reaches (c : Cursor) (bufBytes n : Nat) : Prop :=
  c.base.toNat + (c.pos.toNat + n - 1) / 8 < bufBytes

/-! ### The functional definitions -/

/-- `Window(c, p, n)` (R75): the first bit read is the most significant. -/
def Memory.window (m : Memory) (base : Nat) : (p n : Nat) → Nat
  | _, 0 => 0
  | p, n + 1 => (m.viewBit base p).toNat * 2 ^ n + Memory.window m base (p + 1) n

/-- The byte with only the bit of stream position `p` set (R31). -/
def bitByte (p : Nat) : Byte := BitVec.ofNat 8 (2 ^ (7 - p % 8))

/-- `Insert(c, p, u, n)` (R80): stream bit `p + i` is OR-ed with `u[n-1-i]`; no other bit changes. -/
def Memory.insert (m : Memory) (base : Nat) : (p u n : Nat) → Memory
  | _, _, 0 => m
  | p, u, n + 1 =>
    Memory.insert (if u.testBit n then m.orByte (base + p / 8) (bitByte p) else m) base (p + 1) u n

/-! ### The extraction datapath (R76) -/

/-- The byte lanes a fetch sees: bytes of the footprint from `BUF`, any value elsewhere (R76, D14; log 20). -/
def Memory.lanes (m : Memory) (base p n : Nat) (filler : Nat → Byte) (j : Nat) : Byte :=
  if p / 8 ≤ j ∧ j ≤ (p + n - 1) / 8 then m.viewByte base j else filler j

/-- `FetchWord(c, wb, W)`: `W/8` bytes from view byte `wb` on, big-endian. -/
def fetchWord (lane : Nat → Byte) (wb w : Nat) : Nat := bytesBE lane wb (w / 8)

/-- `ExtractWord(c, p, n, W)` for a word start `wb` with `8*wb <= p < 8*wb + W`: one word, or two spliced. -/
def extractWord (lane : Nat → Byte) (p n w wb : Nat) : Nat :=
  let o := p - 8 * wb
  let hi := fetchWord lane wb w
  if o + n ≤ w then
    ((hi <<< o) % 2 ^ w) >>> (w - n)
  else
    let lo := fetchWord lane (wb + w / 8) w
    (((hi <<< o) % 2 ^ w) ||| (lo >>> (w - o))) >>> (w - n)

/-- Word start, reading (i) of R76: the byte that holds bit `p`. -/
def wordStartByte (p : Nat) : Nat := p / 8

/-- Word start, reading (ii) of R76: the `W`-aligned word of the view that holds bit `p`. -/
def wordStartAligned (p w : Nat) : Nat := p / w * (w / 8)

/-! ### The insertion datapath (R81, R82) -/

/-- `PutBits(c, it, x, m)` (R81): a chunk of `m` bits, `1 <= m <= 8`, into one byte or spliced over two; answers the new
contents and the new iterator. -/
def Memory.putBits (mem : Memory) (base it x m : Nat) : Memory × Nat :=
  let free := 8 - it % 8
  let b := base + it / 8
  if free < m then
    let spill := m - free
    ((mem.orByte b (BitVec.ofNat 8 (x >>> spill))).orByte (b + 1) (BitVec.ofNat 8 ((x <<< (8 - spill)) % 256)), it + m)
  else
    (mem.orByte b (BitVec.ofNat 8 (x <<< (free - m))), it + m)

/-- The full bytes of R82, the most significant first: `for j := q-1 downto 0`. -/
def Memory.putBytes (mem : Memory) (base it u : Nat) : (q : Nat) → Memory × Nat
  | 0 => (mem, it)
  | q + 1 =>
    let step := mem.putBits base it ((u >>> (8 * q)) % 256) 8
    Memory.putBytes step.1 base step.2 u q

/-- `InsertChunks(c, p, u, n)` (R82): the `n mod 8` high bits first, then `n div 8` full bytes. -/
def Memory.insertChunks (mem : Memory) (base p u n : Nat) : Memory × Nat :=
  let q := n / 8
  let first := if n % 8 > 0 then mem.putBits base p (u >>> (8 * q)) (n % 8) else (mem, p)
  first.1.putBytes base first.2 u q

/-! ### The two transfers -/

/-- A transfer whose checks have passed reads its window, advances `P.POS` and answers `RESULT` (R58, R75, R84). A
footprint that is not inside `BUF` has no defined behaviour (R39, U4; log 10). -/
def extractWindow (signed : Bool) (n : Nat) (s : State) : Answer :=
  if s.p.reaches s.cfg.bufBytes n then
    let r := s.buf.window s.p.base.toNat s.p.pos.toNat n
    .next ({ s with p := s.p.advance n }.respond .ok (resultOf signed n r))
  else .refused .outsideBuf

/-- A transfer whose checks have passed ORs its field into the window and advances `K.POS`, once (R80, R84). A footprint
that is not inside `BUF` has no defined behaviour (R39, U4; log 10). -/
def insertWindow (n u : Nat) (s : State) : Answer :=
  if s.k.reaches s.cfg.bufBytes n then
    .next ({ s with buf := s.buf.insert s.k.base.toNat s.k.pos.toNat u n, k := s.k.advance n }.respond .ok 0)
  else .refused .outsideBuf

/-- An integer EXTRACT of type width `w` (R102 to R109). -/
def extractInteger (signed : Bool) (w n : Nat) (s : State) : Answer :=
  guarded (checkExtract s.cfg s.p w n) s (extractWindow signed n s)

/-- A float EXTRACT (R110, R111): `W = n`, so only the bounds are checked, and the pattern is moved unchanged (R88). -/
def extractPattern (w : Nat) (s : State) : Answer :=
  guarded (checkBounds s.cfg s.p w) s (extractWindow false w s)

/-- An integer ADD of type width `w` (R121 to R128). -/
def addInteger (signed : Bool) (w : Nat) (value : Word) (n : Nat) (s : State) : Answer :=
  guarded (checkAdd s.cfg s.k signed w n value) s (insertWindow n (fieldOf w n value) s)

/-- A float ADD (R129, R130): `W = n`, no range check, the pattern `A[W-1:0]` is moved unchanged (R88). -/
def addPattern (w : Nat) (pattern : Word) (s : State) : Answer :=
  guarded (checkBounds s.cfg s.k w) s (insertWindow w (lowBits w pattern) s)

end Sys2Proof.Machine
end

