-- ==== Sys2Proof/Machine/Packer.lean ====
section
/-! DEFINITION. The packer's commands (R120 to R130). None touches cursor P (R24), and every ADD answers `RESULT = 0`. -/

namespace Sys2Proof.Machine

/-- The bytes a zero-filling KINIT clears are bytes of `BUF` (R120, R39); a view of 0 bits has none (log 17). -/
abbrev zeroFillInside (bufBytes : Nat) (base cap : Word) : Prop :=
  ceil8 cap.toNat = 0 ∨ base.toNat + ceil8 cap.toNat ≤ bufBytes

/-- R120: with `z` the `ceil8(A)` bytes of the view are cleared first; then bind the view, `POS` to 0; always `OK`. A
zero-fill that leaves `BUF` has no defined behaviour (R39, U4; log 10). -/
def execKinit (base cap : Word) (z : Bool) (s : State) : Answer :=
  if z then
    if zeroFillInside s.cfg.bufBytes base cap then
      .next ({ s with buf := s.buf.zeroFill base.toNat (ceil8 cap.toNat), k := Cursor.bind base cap }.respond .ok 0)
    else .refused .outsideBuf
  else .next ({ s with k := Cursor.bind base cap }.respond .ok 0)

/-- R121. -/
def execAddU8 (value : Word) (n : Nat) (s : State) : Answer := addInteger false 8 value n s

/-- R122. -/
def execAddU16 (value : Word) (n : Nat) (s : State) : Answer := addInteger false 16 value n s

/-- R123. -/
def execAddU32 (value : Word) (n : Nat) (s : State) : Answer := addInteger false 32 value n s

/-- R124. -/
def execAddU64 (value : Word) (n : Nat) (s : State) : Answer := addInteger false 64 value n s

/-- R125. -/
def execAddI8 (value : Word) (n : Nat) (s : State) : Answer := addInteger true 8 value n s

/-- R126. -/
def execAddI16 (value : Word) (n : Nat) (s : State) : Answer := addInteger true 16 value n s

/-- R127. -/
def execAddI32 (value : Word) (n : Nat) (s : State) : Answer := addInteger true 32 value n s

/-- R128. -/
def execAddI64 (value : Word) (n : Nat) (s : State) : Answer := addInteger true 64 value n s

/-- R129. -/
def execAddFloat (pattern : Word) (s : State) : Answer := addPattern 32 pattern s

/-- R130. -/
def execAddDouble (pattern : Word) (s : State) : Answer := addPattern 64 pattern s

end Sys2Proof.Machine
end

