-- ==== Sys2Proof/Machine/Parser.lean ====
section
/-! DEFINITION. The parser's commands (R100 to R111). None writes `BUF` (R41) or touches cursor K (R24). -/

namespace Sys2Proof.Machine

/-- R100: bind the view, `POS` to 0; always `OK`, containment is not checked. -/
def execPinit (base cap : Word) (s : State) : Answer :=
  .next ({ s with p := Cursor.bind base cap }.respond .ok 0)

/-- R101: advance by the 64-bit count if that many bits remain; nothing is read. -/
def execSkip (count : Word) (s : State) : Answer :=
  guarded (checkBounds s.cfg s.p count.toNat) s (.next ({ s with p := s.p.advance count.toNat }.respond .ok 0))

/-- R102. -/
def execExtractU8 (n : Nat) (s : State) : Answer := extractInteger false 8 n s

/-- R103. -/
def execExtractU16 (n : Nat) (s : State) : Answer := extractInteger false 16 n s

/-- R104. -/
def execExtractU32 (n : Nat) (s : State) : Answer := extractInteger false 32 n s

/-- R105. -/
def execExtractU64 (n : Nat) (s : State) : Answer := extractInteger false 64 n s

/-- R106. -/
def execExtractI8 (n : Nat) (s : State) : Answer := extractInteger true 8 n s

/-- R107. -/
def execExtractI16 (n : Nat) (s : State) : Answer := extractInteger true 16 n s

/-- R108. -/
def execExtractI32 (n : Nat) (s : State) : Answer := extractInteger true 32 n s

/-- R109. -/
def execExtractI64 (n : Nat) (s : State) : Answer := extractInteger true 64 n s

/-- R110. -/
def execExtractFloat (s : State) : Answer := extractPattern 32 s

/-- R111. -/
def execExtractDouble (s : State) : Answer := extractPattern 64 s

end Sys2Proof.Machine
end

