-- ==== Sys2Proof/Machine/Dispatch.lean ====
section
/-! DEFINITION. One arm per command: its meaning. -/

namespace Sys2Proof.Machine

def exec (i : Instr) (s : State) : Host.Outcome State Fault Refusal :=
  match i with
  | .pinit base cap => Sys2Proof.Machine.execPinit base cap s
  | .skip count => Sys2Proof.Machine.execSkip count s
  | .extractU8 n => Sys2Proof.Machine.execExtractU8 n s
  | .extractU16 n => Sys2Proof.Machine.execExtractU16 n s
  | .extractU32 n => Sys2Proof.Machine.execExtractU32 n s
  | .extractU64 n => Sys2Proof.Machine.execExtractU64 n s
  | .extractI8 n => Sys2Proof.Machine.execExtractI8 n s
  | .extractI16 n => Sys2Proof.Machine.execExtractI16 n s
  | .extractI32 n => Sys2Proof.Machine.execExtractI32 n s
  | .extractI64 n => Sys2Proof.Machine.execExtractI64 n s
  | .extractFloat => Sys2Proof.Machine.execExtractFloat s
  | .extractDouble => Sys2Proof.Machine.execExtractDouble s
  | .kinit base cap z => Sys2Proof.Machine.execKinit base cap z s
  | .addU8 value n => Sys2Proof.Machine.execAddU8 value n s
  | .addU16 value n => Sys2Proof.Machine.execAddU16 value n s
  | .addU32 value n => Sys2Proof.Machine.execAddU32 value n s
  | .addU64 value n => Sys2Proof.Machine.execAddU64 value n s
  | .addI8 value n => Sys2Proof.Machine.execAddI8 value n s
  | .addI16 value n => Sys2Proof.Machine.execAddI16 value n s
  | .addI32 value n => Sys2Proof.Machine.execAddI32 value n s
  | .addI64 value n => Sys2Proof.Machine.execAddI64 value n s
  | .addFloat pattern => Sys2Proof.Machine.execAddFloat pattern s
  | .addDouble pattern => Sys2Proof.Machine.execAddDouble pattern s

end Sys2Proof.Machine
end

