-- ==== Sys2Proof/Machine/Step.lean ====
section
/-! DEFINITION. One step: the block takes what the host put to it first. -/

namespace Sys2Proof.Machine

/-- One command record, taken from the channel: decoded and run, or answered as illegal (R55, R56). -/
def runRecord (r : Record) (s : State) : Answer :=
  match decode r with
  | .instr i => exec i s
  | .illegal _ => execIllegal s

/-- One step (R42, R63). With nothing pending the block is idle and holds its registers (R151; log 5). A command is one
indivisible step; a reset and a host write fall between commands (R43, R160; log 7). -/
def step (s : State) : Host.Outcome State Fault Refusal :=
  match s.inbox with
  | [] => .next s
  | .command r :: rest => runRecord r { s with inbox := rest }
  | .reset :: rest => .next { s with inbox := rest }.assertReset
  | .write a v :: rest => { s with inbox := rest }.hostWrite a v

/-- `s` with the command record of the table word `w` put to the command channel before anything else that is pending,
so that the next step takes it (log 4, log 18). -/
def State.withFetchWord (s : State) (nbits w : Nat) : State :=
  { s with inbox := .command (Record.ofTableWord nbits w) :: s.inbox }

end Sys2Proof.Machine
end

