-- ==== Sys2Proof/Safety.lean ====
section
/-! DEFINITION. What a good state and a safe run are, and the facts about a command that the statements are written in. -/

namespace Sys2Proof.Machine

/-- The invariant of the machine: R6's bound on `BUF_BYTES`; `POS <= CAP` on both cursors (R13); `BUF` in canonical form
with no byte listed outside it (R30). -/
abbrev State.Inv (s : State) : Prop :=
  s.cfg.wf ∧ s.p.pos.toNat ≤ s.p.cap.toNat ∧ s.k.pos.toNat ≤ s.k.cap.toNat ∧ s.buf.wf ∧ s.buf.within s.cfg.bufBytes

/-- The width and bounds checks are on and both views are contained: the host keeps its duties of R162 and has not built
the block with a safety check off (R39, R168). -/
abbrev State.guardedViews (s : State) : Prop :=
  s.cfg.chkWidth = true ∧ s.cfg.chkBounds = true ∧ s.p.contained s.cfg.bufBytes ∧ s.k.contained s.cfg.bufBytes

/-- The command is answered: the spec gives it a meaning in this state. A refusal is not safe (R39, R87). -/
def Answered (o : Answer) : Prop := ∃ t, o = .next t

/-- What a failing command leaves (R144): the state as it was, and one more response. -/
def State.failed (s : State) (status : Status) : State := { s with outbox := s.outbox ++ [⟨status, 0⟩] }

/-- The same answer with a change made to its next state. -/
def mapState (f : State → State) : Answer → Answer
  | .next t => .next (f t)
  | .fault r => .fault r
  | .refused r => .refused r

/-- Commands one after the other, as the host issues them (R42); the first that is not answered ends the run. -/
def execAll : List Instr → State → Answer
  | [], s => .next s
  | i :: rest, s =>
    match exec i s with
    | .next t => execAll rest t
    | .fault r => .fault r
    | .refused r => .refused r

end Sys2Proof.Machine

namespace Sys2Proof

/-- What a command asks of its cursor: the document's field request for a transfer (R15, R52). -/
inductive Request where
  /-- Bind the cursor to a view (R100, R120). -/
  | init
  /-- Move on by a count of bits (R101). -/
  | skip (count : Nat)
  /-- An integer field: signedness, type width, requested width. -/
  | integer (signed : Bool) (w n : Nat)
  /-- A float pattern of the type's native width. -/
  | float (w : Nat)
  deriving DecidableEq, Repr

namespace Instr
open Sys2Proof.Machine

/-- The request of each command (R52, R53). -/
def request : Instr → Request
  | .pinit _ _ => .init
  | .skip count => .skip count.toNat
  | .extractU8 n => .integer false 8 n
  | .extractU16 n => .integer false 16 n
  | .extractU32 n => .integer false 32 n
  | .extractU64 n => .integer false 64 n
  | .extractI8 n => .integer true 8 n
  | .extractI16 n => .integer true 16 n
  | .extractI32 n => .integer true 32 n
  | .extractI64 n => .integer true 64 n
  | .extractFloat => .float 32
  | .extractDouble => .float 64
  | .kinit _ _ _ => .init
  | .addU8 _ n => .integer false 8 n
  | .addU16 _ n => .integer false 16 n
  | .addU32 _ n => .integer false 32 n
  | .addU64 _ n => .integer false 64 n
  | .addI8 _ n => .integer true 8 n
  | .addI16 _ n => .integer true 16 n
  | .addI32 _ n => .integer true 32 n
  | .addI64 _ n => .integer true 64 n
  | .addFloat _ => .float 32
  | .addDouble _ => .float 64

/-- A command of the parser cursor (R41, R53); the others are the packer's. -/
def isParser : Instr → Bool
  | .pinit _ _ => true
  | .skip _ => true
  | .extractU8 _ => true
  | .extractU16 _ => true
  | .extractU32 _ => true
  | .extractU64 _ => true
  | .extractI8 _ => true
  | .extractI16 _ => true
  | .extractI32 _ => true
  | .extractI64 _ => true
  | .extractFloat => true
  | .extractDouble => true
  | .kinit _ _ _ => false
  | .addU8 _ _ => false
  | .addU16 _ _ => false
  | .addU32 _ _ => false
  | .addU64 _ _ => false
  | .addI8 _ _ => false
  | .addI16 _ _ => false
  | .addI32 _ _ => false
  | .addI64 _ _ => false
  | .addFloat _ => false
  | .addDouble _ => false

/-- Operand `A` of an ADD; 0 for the other commands. -/
def addend : Instr → Word
  | .pinit _ _ => 0
  | .skip _ => 0
  | .extractU8 _ => 0
  | .extractU16 _ => 0
  | .extractU32 _ => 0
  | .extractU64 _ => 0
  | .extractI8 _ => 0
  | .extractI16 _ => 0
  | .extractI32 _ => 0
  | .extractI64 _ => 0
  | .extractFloat => 0
  | .extractDouble => 0
  | .kinit _ _ _ => 0
  | .addU8 value _ => value
  | .addU16 value _ => value
  | .addU32 value _ => value
  | .addU64 value _ => value
  | .addI8 value _ => value
  | .addI16 value _ => value
  | .addI32 value _ => value
  | .addI64 value _ => value
  | .addFloat value => value
  | .addDouble value => value

/-- PINIT or KINIT. -/
def isInit (i : Instr) : Bool :=
  match i.request with
  | .init => true
  | .skip _ => false
  | .integer _ _ _ => false
  | .float _ => false

/-- A transfer: it reads or writes `BUF` (R30). -/
def isTransfer (i : Instr) : Bool :=
  match i.request with
  | .init => false
  | .skip _ => false
  | .integer _ _ _ => true
  | .float _ => true

/-- One of the ten EXTRACT_*. -/
def isExtract (i : Instr) : Bool := i.isTransfer && i.isParser

/-- One of the ten ADD_*. -/
def isAdd (i : Instr) : Bool := i.isTransfer && !i.isParser

/-- How many bits the command asks for (R71): the count of SKIP, `n` of an integer transfer, the native width of a float. -/
def bits (i : Instr) : Nat :=
  match i.request with
  | .init => 0
  | .skip count => count
  | .integer _ _ n => n
  | .float w => w

/-- The width check of R72 passes or, for a command without a requested width, does not apply. -/
def widthLegal (i : Instr) : Bool :=
  match i.request with
  | .init => true
  | .skip _ => true
  | .integer _ w n => decide (1 ≤ n ∧ n ≤ w)
  | .float _ => true

/-- The value of an integer ADD is in range (R73); any other command has no value to check. -/
def valueFits (i : Instr) : Bool :=
  match i.request with
  | .init => true
  | .skip _ => true
  | .integer signed w n => i.isParser || rangeOK signed w n i.addend
  | .float _ => true

/-- How many low bits of operand `A` the command uses (R54, R59). -/
def aBits (i : Instr) : Nat :=
  match i.request with
  | .init => 64
  | .skip _ => 64
  | .integer _ w _ => if i.isParser then 0 else w
  | .float w => if i.isParser then 0 else w

/-- The cursor the command works on. -/
def cursorOf (i : Instr) (s : State) : Cursor := if i.isParser then s.p else s.k

end Instr

end Sys2Proof
end

