-- ==== Sys2Proof/Certificates/Slice0/Obligations.lean ====
section
/-! DEFINITION. The statements about the model, for the provers. Each `Obligations.<Name>` says what its name states. -/

namespace Sys2Proof.Claims
open Sys2Proof.Machine

/-- A field of `n` bits of a type of width `w` can be moved at the cursor: the width is legal (R72), the bits remain
(R71), and the footprint lies in `BUF` (R35, R39). -/
abbrev canTransfer (cfg : Config) (c : Cursor) (w n : Nat) : Prop :=
  (1 ≤ n ∧ n ≤ w) ∧ n ≤ c.cap.toNat - c.pos.toNat ∧ c.reaches cfg.bufBytes n

/-- `t` is `s` after a parser command that moved `P.POS` by `n` and answered `OK` with `r`: everything else is as it was,
all of `BUF` included (R41). -/
def ParserAnswered (s t : State) (n : Nat) (r : Word) : Prop :=
  t.p.pos.toNat = s.p.pos.toNat + n ∧ t.p.base = s.p.base ∧ t.p.cap = s.p.cap ∧
  t.outbox = s.outbox ++ [⟨.ok, r⟩] ∧
  t.cfg = s.cfg ∧ t.k = s.k ∧ t.inbox = s.inbox ∧ ∀ a, t.buf.read a = s.buf.read a

/-- Whether a field `u` of `n` bits at position `p` of the view at `base` sets bit `j` of byte `a` (R31, R80): the bit is
stream bit `8*(a - base) + (7 - j)`, and takes `u[n-1-i]` for the `i`-th bit of the window. -/
def fieldSets (base p n u a j : Nat) : Bool :=
  let k := 8 * (a - base) + (7 - j)
  decide (base ≤ a) && decide (p ≤ k) && decide (k < p + n) && u.testBit (p + n - 1 - k)

/-- `t` is `s` after an ADD that moved `K.POS` by `n` and answered `OK`: each bit of `BUF` is the old bit OR what the
field sets there (R80), so every byte outside the footprint of the window at `K.POS` is as it was (R35); nothing else
changed. -/
def PackerAnswered (s t : State) (n u : Nat) : Prop :=
  t.k.pos.toNat = s.k.pos.toNat + n ∧ t.k.base = s.k.base ∧ t.k.cap = s.k.cap ∧
  t.outbox = s.outbox ++ [⟨.ok, 0⟩] ∧
  t.cfg = s.cfg ∧ t.p = s.p ∧ t.inbox = s.inbox ∧
  (∀ a j, j < 8 → (t.buf.read a).getLsbD j =
    ((s.buf.read a).getLsbD j || fieldSets s.k.base.toNat s.k.pos.toNat n u a j)) ∧
  ∀ a, ¬inFootprint s.k.base.toNat s.k.pos.toNat n a → t.buf.read a = s.buf.read a

/-- The unsigned integer EXTRACT commands with their type widths. -/
def unsignedExtracts : List (Nat × (Nat → Instr)) :=
  [(8, .extractU8), (16, .extractU16), (32, .extractU32), (64, .extractU64)]

/-- The signed integer EXTRACT commands with their type widths. -/
def signedExtracts : List (Nat × (Nat → Instr)) :=
  [(8, .extractI8), (16, .extractI16), (32, .extractI32), (64, .extractI64)]

/-- The float EXTRACT commands with their native widths. -/
def floatExtracts : List (Nat × Instr) := [(32, .extractFloat), (64, .extractDouble)]

/-- The unsigned integer ADD commands with their type widths. -/
def unsignedAdds : List (Nat × (Word → Nat → Instr)) :=
  [(8, .addU8), (16, .addU16), (32, .addU32), (64, .addU64)]

/-- The signed integer ADD commands with their type widths. -/
def signedAdds : List (Nat × (Word → Nat → Instr)) :=
  [(8, .addI8), (16, .addI16), (32, .addI32), (64, .addI64)]

/-- The float ADD commands with their native widths. -/
def floatAdds : List (Nat × (Word → Instr)) := [(32, .addFloat), (64, .addDouble)]

/-- Each integer ADD with the EXTRACT of the same type: signed or not, the type width, the two commands. -/
def integerPairs : List (Bool × Nat × (Word → Nat → Instr) × (Nat → Instr)) :=
  [(false, 8, .addU8, .extractU8), (false, 16, .addU16, .extractU16),
   (false, 32, .addU32, .extractU32), (false, 64, .addU64, .extractU64),
   (true, 8, .addI8, .extractI8), (true, 16, .addI16, .extractI16),
   (true, 32, .addI32, .extractI32), (true, 64, .addI64, .extractI64)]

/-- Each float ADD with the EXTRACT of the same class. -/
def floatPairs : List (Nat × (Word → Instr) × Instr) :=
  [(32, .addFloat, .extractFloat), (64, .addDouble, .extractDouble)]

/-- The value of a signed operand lies in the range of an `n`-bit field (R73). -/
abbrev signedInRange (w n : Nat) (value : Word) : Prop :=
  -(2 ^ (n - 1) : Int) ≤ (value.setWidth w).toInt ∧ (value.setWidth w).toInt ≤ 2 ^ (n - 1) - 1

/-- The value of an unsigned operand lies in the range of an `n`-bit field (R73). -/
abbrev unsignedInRange (w n : Nat) (value : Word) : Prop := (value.setWidth w).toNat ≤ 2 ^ n - 1

end Sys2Proof.Claims

open Sys2Proof Sys2Proof.Machine Sys2Proof.Claims

/-! ### Records, decoding, encoding -/

/-- For every well-formed command, decoding its encoding gives it back, with every operand at every value; from the
record and from its 18 bytes. -/
def Obligations.DecodeEncodeAgree : Prop :=
  ∀ i : Instr, i.wellFormed = true →
    decode (encode i) = .instr i ∧ decodeBytes (encode i).toBytes = .instr i

/-- What a record decodes to is well-formed, and its encoding is the record with every unused operand 0: the control word
has one meaning and no bit of it or of a used operand is dropped. -/
def Obligations.EncodeDecodeGivesTheRecordBack : Prop :=
  ∀ (r : Record) (i : Instr), decode r = .instr i →
    i.wellFormed = true ∧ (encode i).cw = r.cw ∧
    (encode i).a = (if i.aBits = 0 then 0 else r.a) ∧ (encode i).b = (if i.isInit then r.b else 0)

/-- A control word decodes exactly when a row of the opcode table matches it, and then one row does: the row of the
command it decodes to. -/
def Obligations.LegalWordsAreTheOpcodeTable : Prop :=
  (∀ r : Record, (∃ i, decode r = .instr i) ↔ ∃ row ∈ opcodeTable, row.hits r.cw = true) ∧
  (∀ (r : Record) (i : Instr) (row : OpcodeRow), decode r = .instr i → row ∈ opcodeTable → row.hits r.cw = true →
    row.mnemonic = i.mnemonic) ∧
  opcodeTable.length = 23 ∧ (opcodeTable.map OpcodeRow.mnemonic).Nodup

/-- R55: every control word that matches no row is illegal, and these are exactly the reserved encodings it lists. -/
def Obligations.IllegalWordsAreTheReservedEncodings : Prop :=
  ∀ r : Record,
    ((∃ why, decode r = .illegal why) ↔ ¬∃ row ∈ opcodeTable, row.hits r.cw = true) ∧
    ((∃ why, decode r = .illegal why) ↔
      4 ≤ r.cls ∨ r.bit11 = true ∨ (r.cls = 1 ∧ r.unitK = true) ∨
      (r.flagSZ = true ∧ ((r.cls = 0 ∧ r.unitK = false) ∨ r.cls = 1 ∨ r.cls = 3)) ∨
      (r.sz ≠ 0 ∧ (r.cls = 0 ∨ r.cls = 1)) ∨
      (r.sz < 2 ∧ r.cls = 3) ∨
      (r.nBits ≠ 0 ∧ r.cls ≠ 2))

/-- Words written out from the opcode map: one or more of each family, legal and illegal. -/
def Obligations.WordsDecodeAsTheSpecWritesThem : Prop :=
  decode ⟨0x0000, 80, 3⟩ = .instr (.pinit 3 80) ∧
  decode ⟨0x1000, 13, 0⟩ = .instr (.skip 13) ∧
  decode ⟨0x2005, 0, 0⟩ = .instr (.extractU8 5) ∧
  decode ⟨0x2728, 0, 0⟩ = .instr (.extractI64 40) ∧
  decode ⟨0x3200, 0, 0⟩ = .instr .extractFloat ∧
  decode ⟨0x8400, 12, 0⟩ = .instr (.kinit 0 12 true) ∧
  decode ⟨0xA10C, 0xABC, 0⟩ = .instr (.addU16 0xABC 12) ∧
  decode ⟨0xA403, 0xFE, 0⟩ = .instr (.addI8 0xFE 3) ∧
  decode ⟨0xB300, 0x400C000000000000, 0⟩ = .instr (.addDouble 0x400C000000000000) ∧
  decode ⟨0x9000, 1, 0⟩ = .illegal .packerSkip ∧
  decode ⟨0xB100, 0, 0⟩ = .illegal .floatSize ∧
  decode ⟨0xC000, 0, 0⟩ = .illegal .reservedClass

/-- A record is 144 bits `{CW, A, B}` and 18 big-endian bytes of them; both forms give the record back, and bytes of any
other length are no record. -/
def Obligations.RecordsSurviveBitsAndBytes : Prop :=
  (∀ r : Record, Record.ofBits r.toBits = r ∧ Record.ofBytes r.toBytes = some r ∧ r.toBytes.length = 18 ∧
    beNat r.toBytes = r.toBits.toNat) ∧
  ∀ bs : List Byte, bs.length ≠ 18 → decodeBytes bs = .illegal .notOneRecord

/-- R54, R59: an operand, or the bits of one, that a command does not use take no part in decoding and have no effect;
the assembler emits an unused operand as 0. -/
def Obligations.UnusedOperandsHaveNoEffect : Prop :=
  ∀ (r r' : Record) (i : Instr), decode r = .instr i → r'.cw = r.cw →
    r'.a.toNat % 2 ^ i.aBits = r.a.toNat % 2 ^ i.aBits → (i.isInit = true → r'.b = r.b) →
    (∀ s, runRecord r' s = runRecord r s) ∧ (i.aBits = 0 → (encode i).a = 0) ∧ (i.isInit = false → (encode i).b = 0)

/-- The assembler emits a record for exactly the commands whose width fits `N`, and that record decodes to the command; a
signed number of `W` bits is emitted as its two's-complement pattern, zero-extended. -/
def Obligations.AssemblerEmitsWhatDecodes : Prop :=
  (∀ i : Instr, (assemble i = none ↔ i.wellFormed = false) ∧ ∀ r, assemble i = some r → decode r = .instr i) ∧
  ∀ (w : Nat) (z : Int), w ∈ [8, 16, 32, 64] → -(2 ^ (w - 1) : Int) ≤ z → z ≤ 2 ^ (w - 1) - 1 →
    ((asmValue w z).setWidth w).toInt = z ∧ (asmValue w z).toNat < 2 ^ w

/-! ### The step -/

/-- When the record at the head of the command channel decodes to a command, a step is that command's meaning in the
state without the record; so it is for the bytes of the record, and for a table word put there. -/
def Obligations.StepRunsTheDecodedCommand : Prop :=
  (∀ (s : State) (r : Record) (rest : List HostAction) (i : Instr),
    s.inbox = .command r :: rest → decode r = .instr i → step s = exec i { s with inbox := rest }) ∧
  (∀ (s : State) (r : Record) (rest : List HostAction) (i : Instr),
    s.inbox = .command r :: rest → decodeBytes r.toBytes = .instr i → step s = exec i { s with inbox := rest }) ∧
  ∀ (s : State) (nbits w : Nat) (i : Instr), decodeTableWord nbits w = some i → step (s.withFetchWord nbits w) = exec i s

/-- R56: an illegal record is answered `EINVALID_ARG`, 0, whatever the parameters and whatever `BUF` holds; nothing else
changes. An integer transfer with `N` 0 or above `W` is not an illegal encoding: it decodes, and the width check rejects
it. -/
def Obligations.IllegalCommandIsAnsweredEinvalid : Prop :=
  (∀ (s : State) (r : Record) (rest : List HostAction) (why : Illegal),
    s.inbox = .command r :: rest → decode r = .illegal why →
    step s = .next { s with inbox := rest, outbox := s.outbox ++ [⟨.einvalidArg, 0⟩] }) ∧
  ∀ (op : BitVec 8) (n : Nat) (a b : Word), (op &&& 0x78#8) = 0x20#8 → n ≤ 255 →
    ∃ i, decode ⟨controlWord op n, a, b⟩ = .instr i ∧ i.bits = n ∧ (i.widthLegal = true ↔ 1 ≤ n ∧ n ≤ 8 * 2 ^ (op.toNat % 4)) ∧
      ∀ s : State, i.widthLegal = false → s.cfg.chkWidth = true → exec i s = .next (s.failed .einvalidArg)

/-- With nothing pending the block is idle and holds everything it has. (That an idle block takes a step at all is the
model's own: log 5.) -/
def Obligations.IdleStepChangesNothing : Prop := ∀ s : State, s.inbox = [] → step s = .next s

/-- R21, R160: after reset all six cursor registers are 0, so both cursors are Exhausted with an empty view and R13's
invariant holds; `BUF` is not changed and no response is given; at the launch `BUF` holds whatever the launch gives it. -/
def Obligations.ResetZeroesTheCursorsOnly : Prop :=
  (∀ (s : State) (rest : List HostAction), s.inbox = .reset :: rest →
    step s = .next { s with p := ⟨0, 0, 0⟩, k := ⟨0, 0, 0⟩, inbox := rest }) ∧
  (∀ (cfg : Config) (buf : Memory),
    (State.launch cfg buf).p = ⟨0, 0, 0⟩ ∧ (State.launch cfg buf).k = ⟨0, 0, 0⟩ ∧ (State.launch cfg buf).buf = buf ∧
    (State.launch cfg buf).cfg = cfg) ∧
  State.reset.p = ⟨0, 0, 0⟩ ∧ State.reset.k = ⟨0, 0, 0⟩ ∧ Cursor.exhausted ⟨0, 0, 0⟩ ∧ ¬Cursor.ready ⟨0, 0, 0⟩

/-- A host write between commands changes the byte it writes and no other, and the host reads the byte back; at or above
`BUF_BYTES` there is no byte, and the model refuses (log 8). -/
def Obligations.HostWritesAreRead : Prop :=
  ∀ (s : State) (a : Nat) (v : Byte) (rest : List HostAction), s.inbox = .write a v :: rest →
    (a < s.cfg.bufBytes → ∃ t, step s = .next t ∧ t.hostRead a = some v ∧ (∀ b, b ≠ a → t.hostRead b = s.hostRead b) ∧
      t.cfg = s.cfg ∧ t.p = s.p ∧ t.k = s.k ∧ t.inbox = rest ∧ t.outbox = s.outbox) ∧
    (s.cfg.bufBytes ≤ a → step s = .refused .hostWriteOutsideBuf)

/-- R22: what each command does on a cursor in its reset state with all checks enabled: only a response is added, so no
register and no byte of `BUF` changes, and the response does not depend on `BUF`. -/
def Obligations.CommandsOnTheResetState : Prop :=
  ∀ s : State, s.p = ⟨0, 0, 0⟩ → s.k = ⟨0, 0, 0⟩ → s.cfg.chkWidth = true → s.cfg.chkBounds = true →
    s.cfg.chkRange = true →
    (∀ i : Instr, i.isTransfer = true → i.widthLegal = true → exec i s = .next (s.failed .efull)) ∧
    (∀ i : Instr, i.isTransfer = true → i.widthLegal = false → exec i s = .next (s.failed .einvalidArg)) ∧
    exec (.skip 0) s = .next { s with outbox := s.outbox ++ [⟨.ok, 0⟩] } ∧
    ∀ count : Word, 1 ≤ count.toNat → exec (.skip count) s = .next (s.failed .efull)

/-! ### Parser commands -/

/-- R100: PINIT, control word 0x0000, binds the parser cursor to the view, sets `P.POS` to 0 and answers `OK`, in every
state and for every view; it changes nothing else. -/
def Obligations.PinitBindsTheView : Prop :=
  ∀ (s : State) (base cap : Word),
    decode ⟨0x0000, cap, base⟩ = .instr (.pinit base cap) ∧
    exec (.pinit base cap) s =
      .next { s with p := { base := base, cap := cap, pos := 0 }, outbox := s.outbox ++ [⟨.ok, 0⟩] }

/-- R101: SKIP, control word 0x1000, moves `P.POS` by its 64-bit count, compared exactly, when that many bits remain,
reading nothing; otherwise it answers `EFULL` and changes nothing else; never `EINVALID_ARG`. -/
def Obligations.SkipAdvancesOrAnswersEfull : Prop :=
  ∀ (s : State) (count : Word),
    (∀ b, decode ⟨0x1000, count, b⟩ = .instr (.skip count)) ∧
    exec (.skip count) s ≠ .next (s.failed .einvalidArg) ∧
    (count.toNat ≤ s.p.cap.toNat - s.p.pos.toNat →
      ∃ t, exec (.skip count) s = .next t ∧ ParserAnswered s t count.toNat 0 ∧ t.buf = s.buf) ∧
    (s.p.cap.toNat - s.p.pos.toNat < count.toNat → s.cfg.chkBounds = true →
      exec (.skip count) s = .next (s.failed .efull))

/-- EXTRACT_U8, U16, U32, U64 complete on every legal width that fits: `RESULT` is the window, first bit read most
significant, zero-extended; `P.POS` moves by `n`; nothing else changes. -/
def Obligations.UnsignedExtractsReadTheWindow : Prop :=
  ∀ (w : Nat) (mk : Nat → Instr), (w, mk) ∈ unsignedExtracts → ∀ (s : State) (n : Nat), canTransfer s.cfg s.p w n →
    ∃ t r, exec (mk n) s = .next t ∧ ParserAnswered s t n r ∧
      (∀ i, i < n → r.getLsbD (n - 1 - i) = s.buf.viewBit s.p.base.toNat (s.p.pos.toNat + i)) ∧
      (∀ i, n ≤ i → r.getLsbD i = false) ∧
      r.toNat = s.buf.window s.p.base.toNat s.p.pos.toNat n

/-- EXTRACT_I8, I16, I32, I64 complete on every legal width that fits: `RESULT` is the window sign-extended from its first
bit to 64 bits; `P.POS` moves by `n`; nothing else changes. -/
def Obligations.SignedExtractsSignExtend : Prop :=
  ∀ (w : Nat) (mk : Nat → Instr), (w, mk) ∈ signedExtracts → ∀ (s : State) (n : Nat), canTransfer s.cfg s.p w n →
    ∃ t r, exec (mk n) s = .next t ∧ ParserAnswered s t n r ∧
      (∀ i, i < n → r.getLsbD (n - 1 - i) = s.buf.viewBit s.p.base.toNat (s.p.pos.toNat + i)) ∧
      (∀ i, n - 1 ≤ i → i < 64 → r.getLsbD i = s.buf.viewBit s.p.base.toNat s.p.pos.toNat) ∧
      r.toInt = sext n (s.buf.window s.p.base.toNat s.p.pos.toNat n) ∧
      -(2 ^ (n - 1) : Int) ≤ r.toInt ∧ r.toInt ≤ 2 ^ (n - 1) - 1

/-- EXTRACT_FLOAT and EXTRACT_DOUBLE complete whenever 32 or 64 bits remain: `RESULT` is the pattern, unchanged and
zero-extended; nothing but `P.POS` changes. -/
def Obligations.FloatExtractsMoveThePattern : Prop :=
  ∀ (w : Nat) (i : Instr), (w, i) ∈ floatExtracts → ∀ s : State, canTransfer s.cfg s.p w w →
    ∃ t r, exec i s = .next t ∧ ParserAnswered s t w r ∧
      (∀ j, j < w → r.getLsbD (w - 1 - j) = s.buf.viewBit s.p.base.toNat (s.p.pos.toNat + j)) ∧
      ∀ j, w ≤ j → r.getLsbD j = false

/-- How an EXTRACT fails: `EINVALID_ARG` for an illegal width whatever remains, else `EFULL` when the bits do not remain;
a float EXTRACT only with `EFULL`; and a failure changes nothing and reads nothing. -/
def Obligations.ExtractsFailInOrder : Prop :=
  (∀ (w : Nat) (mk : Nat → Instr), (w, mk) ∈ unsignedExtracts ++ signedExtracts → ∀ (s : State) (n : Nat),
    (¬(1 ≤ n ∧ n ≤ w) → s.cfg.chkWidth = true → exec (mk n) s = .next (s.failed .einvalidArg)) ∧
    (1 ≤ n ∧ n ≤ w → s.p.cap.toNat - s.p.pos.toNat < n → s.cfg.chkBounds = true →
      exec (mk n) s = .next (s.failed .efull))) ∧
  ∀ (w : Nat) (i : Instr), (w, i) ∈ floatExtracts → ∀ s : State,
    (s.p.cap.toNat - s.p.pos.toNat < w → s.cfg.chkBounds = true → exec i s = .next (s.failed .efull)) ∧
    exec i s ≠ .next (s.failed .einvalidArg)

/-- R75: bit `n-1-i` of the window value is stream bit `p+i`, it has no other bits, and it depends on the bytes of the
footprint only. -/
def Obligations.WindowIsTheBitsOfTheStream : Prop :=
  ∀ (m : Memory) (base p n : Nat),
    (∀ i, i < n → (m.window base p n).testBit (n - 1 - i) = m.viewBit base (p + i)) ∧
    m.window base p n < 2 ^ n ∧
    ∀ m' : Memory, (∀ a, inFootprint base p n a → m'.read a = m.read a) → m'.window base p n = m.window base p n

/-- R77: for every word start that R76 allows, the extraction datapath (fetch, shift, splice, align) over byte lanes that
hold the window's bits gives the window value, whatever the lanes hold elsewhere; the lanes that R76 fetches are such
lanes, whatever fills those outside the footprint; and both readings of the word start are allowed. -/
def Obligations.ExtractionDatapathIsTheWindow : Prop :=
  (∀ (m : Memory) (base p n w wb : Nat) (lane : Nat → Byte),
    w ∈ [8, 16, 32, 64] → 1 ≤ n → n ≤ w → 8 * wb ≤ p → p < 8 * wb + w →
    (∀ i, i < n → laneBit lane (p + i) = m.viewBit base (p + i)) →
    extractWord lane p n w wb = m.window base p n) ∧
  (∀ (m : Memory) (base p n w wb : Nat) (filler : Nat → Byte),
    w ∈ [8, 16, 32, 64] → 1 ≤ n → n ≤ w → 8 * wb ≤ p → p < 8 * wb + w →
    extractWord (m.lanes base p n filler) p n w wb = m.window base p n) ∧
  ∀ p w : Nat, w ∈ [8, 16, 32, 64] →
    (8 * wordStartByte p ≤ p ∧ p < 8 * wordStartByte p + w) ∧
    (8 * wordStartAligned p w ≤ p ∧ p < 8 * wordStartAligned p w + w)

/-- A field that starts on a byte boundary and is `8m` bits long is `m` whole bytes in big-endian order: `MemRead`; and
`MemWrite` followed by `MemRead` gives the number back. -/
def Obligations.AlignedFieldsAreBigEndianBytes : Prop :=
  (∀ (m : Memory) (base j count : Nat), m.window base (8 * j) (8 * count) = m.readBE (base + j) count) ∧
  ∀ (m : Memory) (a count v : Nat), (m.writeBE a count v).readBE a count = v % 256 ^ count

/-- An EXTRACT reads the bytes of its footprint only, and PINIT and SKIP read none: with `BUF` changed elsewhere the answer
is the same. -/
def Obligations.ParserReadsOnlyTheFootprint : Prop :=
  ∀ (i : Instr) (s : State) (b : Memory), i.isParser = true →
    (i.isExtract = true → ∀ a, inFootprint s.p.base.toNat s.p.pos.toNat i.bits a → b.read a = s.buf.read a) →
    exec i { s with buf := b } = mapState (fun t => { t with buf := b }) (exec i s)

/-- R41: no parser command writes any byte of `BUF`, whatever its outcome. -/
def Obligations.ParserNeverWritesBuf : Prop :=
  ∀ (i : Instr) (s t : State), i.isParser = true → exec i s = .next t → t.buf = s.buf

/-! ### Packer commands -/

/-- R120: KINIT, control word 0x8000 or with `z` 0x8400, binds the packer cursor, sets `K.POS` to 0 and answers `OK`;
without `z` `BUF` stays; with `z` the `ceil8(A)` bytes from `B` on read as 0 and no other byte changes; a zero-fill that
would leave `BUF` is refused. That a zero-filling KINIT of capacity 0 completes wherever its base is, also above
`BUF_BYTES`, is the model's choice (log 17, DEDUCED). -/
def Obligations.KinitBindsAndZeroFills : Prop :=
  ∀ (s : State) (base cap : Word),
    decode ⟨0x8000, cap, base⟩ = .instr (.kinit base cap false) ∧
    decode ⟨0x8400, cap, base⟩ = .instr (.kinit base cap true) ∧
    (exec (.kinit base cap false) s =
      .next { s with k := { base := base, cap := cap, pos := 0 }, outbox := s.outbox ++ [⟨.ok, 0⟩] }) ∧
    ((cap = 0 ∨ base.toNat + (cap.toNat + 7) / 8 ≤ s.cfg.bufBytes) →
      ∃ t, exec (.kinit base cap true) s = .next t ∧ t.k = { base := base, cap := cap, pos := 0 } ∧
        t.outbox = s.outbox ++ [⟨.ok, 0⟩] ∧ t.cfg = s.cfg ∧ t.p = s.p ∧ t.inbox = s.inbox ∧
        (∀ a, base.toNat ≤ a → a < base.toNat + (cap.toNat + 7) / 8 → t.buf.read a = 0) ∧
        ∀ a, ¬(base.toNat ≤ a ∧ a < base.toNat + (cap.toNat + 7) / 8) → t.buf.read a = s.buf.read a) ∧
    (cap ≠ 0 → s.cfg.bufBytes < base.toNat + (cap.toNat + 7) / 8 →
      exec (.kinit base cap true) s = .refused .outsideBuf)

/-- The zero-fill is the loop of single-byte writes that R120 gives. -/
def Obligations.ZeroFillIsTheLoopOfWrites : Prop :=
  ∀ (m : Memory) (a count : Nat), m.zeroFill a count = m.zeroFillLoop a count

/-- ADD_U8, U16, U32, U64 complete on every legal width that fits, for a value in range, or any value when the range check
is off (then the value is truncated): the low `n` bits of `A` are OR-ed into the window, first bit most significant. -/
def Obligations.UnsignedAddsOrTheField : Prop :=
  ∀ (w : Nat) (mk : Word → Nat → Instr), (w, mk) ∈ unsignedAdds → ∀ (s : State) (value : Word) (n : Nat),
    canTransfer s.cfg s.k w n → (unsignedInRange w n value ∨ s.cfg.chkRange = false) →
    ∃ t, exec (mk value n) s = .next t ∧ PackerAnswered s t n (value.toNat % 2 ^ n)

/-- ADD_I8, I16, I32, I64 complete on every legal width that fits, for a value in range, or any value when the range check
is off (then the value is truncated): the low `n` bits of `A` are OR-ed into the window, first bit most significant. -/
def Obligations.SignedAddsOrTheField : Prop :=
  ∀ (w : Nat) (mk : Word → Nat → Instr), (w, mk) ∈ signedAdds → ∀ (s : State) (value : Word) (n : Nat),
    canTransfer s.cfg s.k w n → (signedInRange w n value ∨ s.cfg.chkRange = false) →
    ∃ t, exec (mk value n) s = .next t ∧ PackerAnswered s t n (value.toNat % 2 ^ n)

/-- ADD_FLOAT and ADD_DOUBLE complete whenever 32 or 64 bits remain, whatever the pattern and whatever `CHK_RANGE`: the
pattern is OR-ed into the window unchanged. -/
def Obligations.FloatAddsOrThePattern : Prop :=
  ∀ (w : Nat) (mk : Word → Instr), (w, mk) ∈ floatAdds → ∀ (s : State) (pattern : Word), canTransfer s.cfg s.k w w →
    ∃ t, exec (mk pattern) s = .next t ∧ PackerAnswered s t w (pattern.toNat % 2 ^ w)

/-- How an ADD fails: `EINVALID_ARG` for an illegal width whatever remains; else `EFULL` when the bits do not remain,
whatever the value; else `EINVALID_ARG` for a value out of range; a float ADD only with `EFULL`. Nothing else changes. -/
def Obligations.AddsFailInOrder : Prop :=
  (∀ (w : Nat) (mk : Word → Nat → Instr), (w, mk) ∈ unsignedAdds ++ signedAdds → ∀ (s : State) (value : Word) (n : Nat),
    (¬(1 ≤ n ∧ n ≤ w) → s.cfg.chkWidth = true → exec (mk value n) s = .next (s.failed .einvalidArg)) ∧
    (1 ≤ n ∧ n ≤ w → s.k.cap.toNat - s.k.pos.toNat < n → s.cfg.chkBounds = true →
      exec (mk value n) s = .next (s.failed .efull))) ∧
  (∀ (w : Nat) (mk : Word → Nat → Instr), (w, mk) ∈ unsignedAdds → ∀ (s : State) (value : Word) (n : Nat),
    1 ≤ n → n ≤ w → n ≤ s.k.cap.toNat - s.k.pos.toNat → ¬unsignedInRange w n value → s.cfg.chkRange = true →
    exec (mk value n) s = .next (s.failed .einvalidArg)) ∧
  (∀ (w : Nat) (mk : Word → Nat → Instr), (w, mk) ∈ signedAdds → ∀ (s : State) (value : Word) (n : Nat),
    1 ≤ n → n ≤ w → n ≤ s.k.cap.toNat - s.k.pos.toNat → ¬signedInRange w n value → s.cfg.chkRange = true →
    exec (mk value n) s = .next (s.failed .einvalidArg)) ∧
  ∀ (w : Nat) (mk : Word → Instr), (w, mk) ∈ floatAdds → ∀ (s : State) (pattern : Word),
    (s.k.cap.toNat - s.k.pos.toNat < w → s.cfg.chkBounds = true → exec (mk pattern) s = .next (s.failed .efull)) ∧
    exec (mk pattern) s ≠ .next (s.failed .einvalidArg)

/-- The range check and its bit tests: an unsigned value passes when its bits from `n` to `W-1` are 0, a signed one when
its bits from `n-1` to `W-1` are equal; with `n = W` every value passes. -/
def Obligations.RangeCheckIsTheBitTest : Prop :=
  ∀ (w n : Nat) (a : Word), w ∈ [8, 16, 32, 64] → 1 ≤ n → n ≤ w →
    (rangeOK false w n a = true ↔ unsignedInRange w n a) ∧
    (rangeOK true w n a = true ↔ signedInRange w n a) ∧
    (rangeOK false w n a = true ↔ ∀ i, n ≤ i → i < w → a.getLsbD i = false) ∧
    (rangeOK true w n a = true ↔ ∀ i, n - 1 ≤ i → i < w → a.getLsbD i = a.getLsbD (w - 1)) ∧
    (n = w → rangeOK false w n a = true ∧ rangeOK true w n a = true)

/-- R80: the insertion ORs bit `n-1-i` of `u` into stream bit `p+i`, changes no other bit of `BUF`, clears none, and
touches bytes of its footprint only. -/
def Obligations.InsertOrsIntoTheWindow : Prop :=
  ∀ (m : Memory) (base p u n : Nat),
    (∀ i, i < n → (m.insert base p u n).viewBit base (p + i) = (m.viewBit base (p + i) || u.testBit (n - 1 - i))) ∧
    (∀ k, ¬(p ≤ k ∧ k < p + n) → (m.insert base p u n).viewBit base k = m.viewBit base k) ∧
    (∀ a, a < base → (m.insert base p u n).read a = m.read a) ∧
    (∀ a j, (m.read a).getLsbD j = true → ((m.insert base p u n).read a).getLsbD j = true) ∧
    ∀ a, ¬inFootprint base p n a → (m.insert base p u n).read a = m.read a

/-- R83: decomposition into chunks and the cross-byte splice have exactly the insert effect, and end at `p + n`. -/
def Obligations.InsertionDatapathIsTheInsert : Prop :=
  ∀ (m : Memory) (base p u n : Nat), m.wf → 1 ≤ n → n ≤ 64 → u < 2 ^ n →
    m.insertChunks base p u n = (m.insert base p u n, p + n)

/-- One chunk of 1 to 8 bits, in one byte or spliced over two: it ORs bit `m-1-i` of the chunk into stream bit `it+i`,
changes no other bit, and gives the new iterator. -/
def Obligations.ChunkSpliceOrsTheChunk : Prop :=
  ∀ (mem : Memory) (base it x m : Nat), 1 ≤ m → m ≤ 8 → x < 2 ^ m →
    (mem.putBits base it x m).2 = it + m ∧
    (∀ i, i < m → (mem.putBits base it x m).1.viewBit base (it + i) =
      (mem.viewBit base (it + i) || x.testBit (m - 1 - i))) ∧
    (∀ k, ¬(it ≤ k ∧ k < it + m) → (mem.putBits base it x m).1.viewBit base k = mem.viewBit base k) ∧
    ∀ a, a < base → (mem.putBits base it x m).1.read a = mem.read a

/-- OR-ing the same bits into the same place twice leaves the same bytes as once, as one memory in canonical form. -/
def Obligations.InsertTwiceIsInsertOnce : Prop :=
  ∀ (m : Memory) (base p u n : Nat), m.wf →
    (m.insert base p u n).insert base p u n = m.insert base p u n

/-- The float commands are the unsigned integer commands of their width, in every state. -/
def Obligations.FloatsAreUnsignedWords : Prop :=
  ∀ s : State,
    exec .extractFloat s = exec (.extractU32 32) s ∧ exec .extractDouble s = exec (.extractU64 64) s ∧
    ∀ pattern : Word, exec (.addFloat pattern) s = exec (.addU32 pattern 32) s ∧
      exec (.addDouble pattern) s = exec (.addU64 pattern 64) s

/-! ### Round trips -/

/-- R85, R90: the window after an insertion is the old window OR the field; over a zero window it is the field, an
in-range unsigned value reads back as itself and so does a signed one. -/
def Obligations.WindowAfterInsertIsOldOrNew : Prop :=
  ∀ (m : Memory) (base p u n : Nat), u < 2 ^ n →
    (m.insert base p u n).window base p n = m.window base p n ||| u ∧
    (m.window base p n = 0 → (m.insert base p u n).window base p n = u) ∧
    (m.window base p n = 0 → ∀ z : Int, 1 ≤ n → -(2 ^ (n - 1) : Int) ≤ z → z ≤ 2 ^ (n - 1) - 1 →
      (u : Int) = z % 2 ^ n → sext n ((m.insert base p u n).window base p n) = z)

/-- The round-trip law on commands: an ADD over zero bits, then the EXTRACT of the same type and width at the same place,
answers the value that was added, zero- or sign-extended; for floats the pattern. -/
def Obligations.AddThenExtractReturnsTheValue : Prop :=
  (∀ (signed : Bool) (w : Nat) (add : Word → Nat → Instr) (ext : Nat → Instr), (signed, w, add, ext) ∈ integerPairs →
    ∀ (s : State) (value : Word) (n : Nat), canTransfer s.cfg s.k w n → canTransfer s.cfg s.p w n →
    s.p.base = s.k.base → s.p.pos = s.k.pos → s.buf.window s.k.base.toNat s.k.pos.toNat n = 0 →
    (if signed then signedInRange w n value else unsignedInRange w n value) →
    ∃ t t', exec (add value n) s = .next t ∧ exec (ext n) t = .next t' ∧
      t'.outbox = s.outbox ++ [⟨.ok, 0⟩, ⟨.ok,
        if signed then (value.setWidth w).signExtend 64 else (value.setWidth w).setWidth 64⟩]) ∧
  ∀ (w : Nat) (add : Word → Instr) (ext : Instr), (w, add, ext) ∈ floatPairs →
    ∀ (s : State) (pattern : Word), canTransfer s.cfg s.k w w → canTransfer s.cfg s.p w w →
    s.p.base = s.k.base → s.p.pos = s.k.pos → s.buf.window s.k.base.toNat s.k.pos.toNat w = 0 →
    ∃ t t', exec (add pattern) s = .next t ∧ exec ext t = .next t' ∧
      t'.outbox = s.outbox ++ [⟨.ok, 0⟩, ⟨.ok, (pattern.setWidth w).setWidth 64⟩]

/-! ### Rules of the whole machine -/

/-- The invariant holds at reset and at every launch with contents in canonical form inside `BUF`. -/
def Obligations.InvariantHoldsAtReset : Prop :=
  State.reset.Inv ∧ ∀ (cfg : Config) (buf : Memory), cfg.wf → buf.wf → buf.within cfg.bufBytes →
    (State.launch cfg buf).Inv

/-- Every step keeps the invariant: `POS <= CAP` on both cursors, `BUF` in canonical form with no byte outside it, the
bound on `BUF_BYTES`; whatever is pending, commands legal and illegal, resets and host writes. -/
def Obligations.EveryStepKeepsTheInvariant : Prop := ∀ s t : State, s.Inv → step s = .next t → t.Inv

/-- R13: `0 <= POS <= CAP` holds from reset, every step keeps it on both cursors, and a command that would break it does
not advance partially: if it is answered at all, no register and no byte has changed. -/
def Obligations.PositionNeverPassesCapacity : Prop :=
  (∀ (cfg : Config) (buf : Memory), (State.launch cfg buf).p.pos.toNat ≤ (State.launch cfg buf).p.cap.toNat ∧
    (State.launch cfg buf).k.pos.toNat ≤ (State.launch cfg buf).k.cap.toNat) ∧
  (∀ s t : State, s.p.pos.toNat ≤ s.p.cap.toNat → s.k.pos.toNat ≤ s.k.cap.toNat → step s = .next t →
    t.p.pos.toNat ≤ t.p.cap.toNat ∧ t.k.pos.toNat ≤ t.k.cap.toNat) ∧
  ∀ (i : Instr) (s t : State), i.isInit = false → (i.cursorOf s).cap.toNat - (i.cursorOf s).pos.toNat < i.bits →
    exec i s = .next t → t.p = s.p ∧ t.k = s.k ∧ t.buf = s.buf

/-- R24: no command of P reads or writes a register of K, and none of K a register of P: with the other cursor's registers
changed, the answer is the same but for them. -/
def Obligations.CursorsAreIndependent : Prop :=
  ∀ (i : Instr) (s : State) (c : Cursor),
    (i.isParser = true → exec i { s with k := c } = mapState (fun t => { t with k := c }) (exec i s)) ∧
    (i.isParser = false → exec i { s with p := c } = mapState (fun t => { t with p := c }) (exec i s))

/-- R11, R14: only a cursor's own INIT writes its `CAP` and `BASE`, whatever any command's outcome, and INIT writes them
with any values. -/
def Obligations.OnlyInitWritesCapacityAndBase : Prop :=
  ∀ (i : Instr) (s t : State), exec i s = .next t →
    ((t.p.cap = s.p.cap ∧ t.p.base = s.p.base) ∨ ∃ base cap, i = .pinit base cap ∧ t.p.base = base ∧ t.p.cap = cap) ∧
    ((t.k.cap = s.k.cap ∧ t.k.base = s.k.base) ∨ ∃ base cap z, i = .kinit base cap z ∧ t.k.base = base ∧ t.k.cap = cap) ∧
    (∀ base cap, i = .pinit base cap → t.p.base = base ∧ t.p.cap = cap) ∧
    ∀ base cap z, i = .kinit base cap z → t.k.base = base ∧ t.k.cap = cap

/-- R12: between two INITs of a cursor its `POS` never decreases: a command answered `OK` that consumes or produces `n`
bits adds exactly `n` to its cursor's `POS`, one answered otherwise leaves it, INIT sets it to 0; the other cursor's
`POS` stays. -/
def Obligations.PositionMovesByTheFieldSize : Prop :=
  ∀ (i : Instr) (s t : State), exec i s = .next t →
    (i.isInit = true → (i.cursorOf t).pos = 0) ∧
    (i.isInit = false → (i.cursorOf s).pos.toNat ≤ (i.cursorOf t).pos.toNat) ∧
    (∀ r, i.isInit = false → t.outbox = s.outbox ++ [⟨.ok, r⟩] →
      (i.cursorOf t).pos.toNat = (i.cursorOf s).pos.toNat + i.bits) ∧
    (∀ st r, st ≠ .ok → t.outbox = s.outbox ++ [⟨st, r⟩] → (i.cursorOf t).pos = (i.cursorOf s).pos) ∧
    (i.isParser = true → t.k.pos = s.k.pos) ∧ (i.isParser = false → t.p.pos = s.p.pos)

/-- R144: a command that answers `EFULL` or `EINVALID_ARG` leaves all six cursor registers and every byte of `BUF` as they
were and saves nothing; it reads nothing: with any other contents of `BUF` it fails alike. -/
def Obligations.FailuresChangeNothing : Prop :=
  ∀ (i : Instr) (s t : State) (st : Status) (r : Word), exec i s = .next t → st ≠ .ok →
    t.outbox = s.outbox ++ [⟨st, r⟩] →
    t = s.failed st ∧ ∀ b : Memory, exec i { s with buf := b } = .next ({ s with buf := b }.failed st)

/-- R57: every command record, legal or not, that is answered gives exactly one response, behind the earlier ones; the
response is 66 bits, `STATUS` over `RESULT`, with `OK` = 0, `EFULL` = 1, `EINVALID_ARG` = 2, and the value 3 is never
produced. -/
def Obligations.OneResponsePerCommand : Prop :=
  (∀ (s t : State) (r : Record) (rest : List HostAction), s.inbox = .command r :: rest → step s = .next t →
    ∃ resp : Response, t.outbox = s.outbox ++ [resp] ∧ t.inbox = rest) ∧
  (∀ resp : Response, resp.toBits.extractLsb' 64 2 = resp.status.code ∧ resp.toBits.extractLsb' 0 64 = resp.result) ∧
  Status.code .ok = 0 ∧ Status.code .efull = 1 ∧ Status.code .einvalidArg = 2 ∧ ∀ st : Status, st.code ≠ 3

/-- `RESULT` is 0 on any status other than `OK`, and on `OK` for every command that is not an EXTRACT. -/
def Obligations.ResultIsZeroUnlessExtracted : Prop :=
  ∀ (i : Instr) (s t : State) (resp : Response), exec i s = .next t → t.outbox = s.outbox ++ [resp] →
    resp.result ≠ 0 → resp.status = .ok ∧ i.isExtract = true

/-- `EFULL` is answered exactly when the bounds check is on, the command is no INIT, its width is legal, and more bits are
asked for than remain. -/
def Obligations.EfullExactlyWhenBitsDoNotRemain : Prop :=
  ∀ (i : Instr) (s : State), exec i s = .next (s.failed .efull) ↔
    s.cfg.chkBounds = true ∧ i.isInit = false ∧ i.widthLegal = true ∧
      (i.cursorOf s).cap.toNat - (i.cursorOf s).pos.toNat < i.bits

/-- A legal command answers `EINVALID_ARG` exactly when its width is illegal and the width check on, or its value out of
range and the range check on with a width that is legal and bits that remain. -/
def Obligations.EinvalidExactlyWhenArgumentsAreBad : Prop :=
  ∀ (i : Instr) (s : State), exec i s = .next (s.failed .einvalidArg) ↔
    (s.cfg.chkWidth = true ∧ i.widthLegal = false) ∨
    (s.cfg.chkRange = true ∧ i.widthLegal = true ∧ i.bits ≤ (i.cursorOf s).cap.toNat - (i.cursorOf s).pos.toNat ∧
      i.valueFits = false)

/-- A command that a disabled check would have stopped, or whose bytes are outside `BUF`, has no defined behaviour: the
model refuses it and gives it no next state. -/
def Obligations.UndefinedCommandsAreRefused : Prop :=
  ∀ (i : Instr) (s : State),
    (s.cfg.chkWidth = false → i.widthLegal = false → exec i s = .refused .widthUnchecked) ∧
    (s.cfg.chkBounds = false → i.isInit = false → i.widthLegal = true →
      (i.cursorOf s).cap.toNat - (i.cursorOf s).pos.toNat < i.bits → exec i s = .refused .boundsUnchecked) ∧
    (i.isTransfer = true → i.widthLegal = true → i.bits ≤ (i.cursorOf s).cap.toNat - (i.cursorOf s).pos.toNat →
      (i.valueFits = true ∨ s.cfg.chkRange = false) → ¬(i.cursorOf s).reaches s.cfg.bufBytes i.bits →
      exec i s = .refused .outsideBuf)

/-- Nothing else is refused: a refusal says that a check is off and would have failed, or that a byte outside `BUF` would
be used. That a zero-filling KINIT of capacity 0 is never refused, wherever its base is, is the model's choice (log 17,
DEDUCED). -/
def Obligations.OnlyUndefinedCommandsAreRefused : Prop :=
  ∀ (i : Instr) (s : State) (why : Refusal), exec i s = .refused why →
    (why = .widthUnchecked ∧ s.cfg.chkWidth = false ∧ i.widthLegal = false) ∨
    (why = .boundsUnchecked ∧ s.cfg.chkBounds = false ∧ i.isInit = false ∧
      (i.cursorOf s).cap.toNat - (i.cursorOf s).pos.toNat < i.bits) ∨
    (why = .outsideBuf ∧ i.isTransfer = true ∧ ¬(i.cursorOf s).reaches s.cfg.bufBytes i.bits) ∨
    (why = .outsideBuf ∧ ∃ base cap, i = .kinit base cap true ∧ cap ≠ 0 ∧
      s.cfg.bufBytes < base.toNat + (cap.toNat + 7) / 8)

/-- With the width and bounds checks on and both views contained, every command is answered, but for a zero-filling KINIT
whose own new view is not contained. -/
def Obligations.ContainedViewsAreAlwaysAnswered : Prop :=
  ∀ (i : Instr) (s : State), s.guardedViews →
    (∀ base cap, i = .kinit base cap true → base.toNat + (cap.toNat + 7) / 8 ≤ s.cfg.bufBytes) → Answered (exec i s)

/-- A byte of `BUF` changes in a step only if the host wrote it, or an ADD whose window holds a bit of it ran, or a
zero-filling KINIT whose view holds it. -/
def Obligations.BytesChangeOnlyByTheseWrites : Prop :=
  ∀ (s t : State) (a : Nat), step s = .next t → t.buf.read a ≠ s.buf.read a →
    (∃ v rest, s.inbox = .write a v :: rest) ∨
    ∃ r rest i, s.inbox = .command r :: rest ∧ decode r = .instr i ∧
      ((i.isAdd = true ∧ inFootprint s.k.base.toNat s.k.pos.toNat i.bits a) ∨
       ∃ base cap, i = .kinit base cap true ∧ base.toNat ≤ a ∧ a < base.toNat + (cap.toNat + 7) / 8)

/-- A cursor of a good state is Ready or Exhausted and not both; Ready means bits remain; an Exhausted one answers `EFULL`
to every request of one bit or more of legal width, and `OK` to a SKIP of 0 bits. -/
def Obligations.ReadyOrExhausted : Prop :=
  ∀ s : State, s.Inv →
    (∀ c ∈ [s.p, s.k], (c.ready ∨ c.exhausted) ∧ ¬(c.ready ∧ c.exhausted) ∧ (c.ready ↔ c.remaining ≠ 0)) ∧
    (∀ i : Instr, s.cfg.chkBounds = true → i.isInit = false → i.widthLegal = true → 1 ≤ i.bits →
      (i.cursorOf s).exhausted → exec i s = .next (s.failed .efull)) ∧
    exec (.skip 0) s = .next { s with outbox := s.outbox ++ [⟨.ok, 0⟩] }

/-- No step changes a parameter. -/
def Obligations.ParametersNeverChange : Prop := ∀ s t : State, step s = .next t → t.cfg = s.cfg

/-- The host's own count of the position is right: over any run of commands without a PINIT, `P.POS` moves by the sum of
the widths of the parser's commands that were answered `OK`. -/
def Obligations.PositionIsTheSumOfAcceptedWidths : Prop :=
  ∀ (is : List Instr) (s t : State), (∀ i ∈ is, ∀ base cap, i ≠ .pinit base cap) → execAll is s = .next t →
    ∃ rs : List Response, rs.length = is.length ∧ t.outbox = s.outbox ++ rs ∧
      t.p.pos.toNat = s.p.pos.toNat +
        ((is.zip rs).map fun x => if x.1.isParser = true ∧ x.2.status = .ok then x.1.bits else 0).sum

/-- A run of commands of one cursor whose widths together exceed what remains: the commands before the first that would
cross the end are all answered `OK`, that one answers `EFULL`, and it leaves everything the others did. -/
def Obligations.FirstCrossingCommandAnswersEfull : Prop :=
  ∀ (before : List Instr) (i : Instr) (s : State), s.cfg.chkBounds = true →
    (∀ j ∈ before ++ [i], j.isParser = i.isParser ∧ j.isInit = false ∧ j.widthLegal = true ∧ j.valueFits = true) →
    (i.cursorOf s).contained s.cfg.bufBytes →
    (before.map Instr.bits).sum ≤ (i.cursorOf s).cap.toNat - (i.cursorOf s).pos.toNat →
    (i.cursorOf s).cap.toNat - (i.cursorOf s).pos.toNat < (before.map Instr.bits).sum + i.bits →
    ∃ u rs, execAll before s = .next u ∧ rs.length = before.length ∧ (∀ r ∈ rs, r.status = .ok) ∧
      u.outbox = s.outbox ++ rs ∧ exec i u = .next (u.failed .efull)
end

