-- ==== Sys2Proof/Laws/State.lean ====
section
/-! SUPPORT. What each update of the state does to each field. -/

namespace Sys2Proof.Machine

section respond
variable (s : State) (st : Status) (r : Word)
@[simp] theorem State.respond_cfg : (s.respond st r).cfg = s.cfg := rfl
@[simp] theorem State.respond_p : (s.respond st r).p = s.p := rfl
@[simp] theorem State.respond_k : (s.respond st r).k = s.k := rfl
@[simp] theorem State.respond_buf : (s.respond st r).buf = s.buf := rfl
@[simp] theorem State.respond_inbox : (s.respond st r).inbox = s.inbox := rfl
@[simp] theorem State.respond_outbox : (s.respond st r).outbox = s.outbox ++ [⟨st, r⟩] := rfl
end respond

section reject
variable (s : State) (st : Status)
@[simp] theorem State.reject_cfg : (s.reject st).cfg = s.cfg := rfl
@[simp] theorem State.reject_p : (s.reject st).p = s.p := rfl
@[simp] theorem State.reject_k : (s.reject st).k = s.k := rfl
@[simp] theorem State.reject_buf : (s.reject st).buf = s.buf := rfl
@[simp] theorem State.reject_inbox : (s.reject st).inbox = s.inbox := rfl
@[simp] theorem State.reject_outbox : (s.reject st).outbox = s.outbox ++ [⟨st, 0⟩] := rfl
end reject

section assertReset
variable (s : State)
@[simp] theorem State.assertReset_cfg : s.assertReset.cfg = s.cfg := rfl
@[simp] theorem State.assertReset_p : s.assertReset.p = Cursor.zero := rfl
@[simp] theorem State.assertReset_k : s.assertReset.k = Cursor.zero := rfl
@[simp] theorem State.assertReset_buf : s.assertReset.buf = s.buf := rfl
@[simp] theorem State.assertReset_inbox : s.assertReset.inbox = s.inbox := rfl
@[simp] theorem State.assertReset_outbox : s.assertReset.outbox = s.outbox := rfl
end assertReset

section launch
variable (cfg : Config) (buf : Memory)
@[simp] theorem State.launch_cfg : (State.launch cfg buf).cfg = cfg := rfl
@[simp] theorem State.launch_p : (State.launch cfg buf).p = Cursor.zero := rfl
@[simp] theorem State.launch_k : (State.launch cfg buf).k = Cursor.zero := rfl
@[simp] theorem State.launch_buf : (State.launch cfg buf).buf = buf := rfl
@[simp] theorem State.launch_inbox : (State.launch cfg buf).inbox = [] := rfl
@[simp] theorem State.launch_outbox : (State.launch cfg buf).outbox = [] := rfl
end launch

section cursor
variable (c : Cursor) (n : Nat) (base cap : Word)
@[simp] theorem Cursor.advance_base : (c.advance n).base = c.base := rfl
@[simp] theorem Cursor.advance_cap : (c.advance n).cap = c.cap := rfl
@[simp] theorem Cursor.bind_base : (Cursor.bind base cap).base = base := rfl
@[simp] theorem Cursor.bind_cap : (Cursor.bind base cap).cap = cap := rfl
@[simp] theorem Cursor.bind_pos : (Cursor.bind base cap).pos = 0 := rfl
@[simp] theorem Cursor.zero_base : Cursor.zero.base = 0 := rfl
@[simp] theorem Cursor.zero_cap : Cursor.zero.cap = 0 := rfl
@[simp] theorem Cursor.zero_pos : Cursor.zero.pos = 0 := rfl

/-- A request that fits moves `POS` by exactly its width: the 64-bit register does not wrap (R71, R84). -/
theorem Cursor.advance_pos_toNat (h : n ≤ c.remaining) : (c.advance n).pos.toNat = c.pos.toNat + n := by
  have hcap := c.cap.isLt
  have hpos := c.pos.isLt
  unfold Cursor.remaining at h
  rw [Cursor.advance, BitVec.toNat_ofNat, Nat.mod_eq_of_lt]
  omega

/-- Such a request leaves `POS <= CAP` if it held before (R13). -/
theorem Cursor.advance_pos_le_cap (hc : c.pos.toNat ≤ c.cap.toNat) (h : n ≤ c.remaining) :
    (c.advance n).pos.toNat ≤ (c.advance n).cap.toNat := by
  rw [c.advance_pos_toNat n h, Cursor.advance_cap]
  unfold Cursor.remaining at h
  omega
end cursor

end Sys2Proof.Machine
end

