-- ==== Sys2Proof/Laws/Memory.lean ====
section
/-! SUPPORT. The laws of `BUF`: reading after each operation, and that each keeps the canonical form. -/

namespace Sys2Proof.Machine
namespace Memory

/-! ### Reading -/

theorem read_nil (a : Nat) : Memory.read [] a = unlistedByte := rfl

theorem read_cons (k : Nat) (v : Byte) (m : Memory) (a : Nat) :
    Memory.read ((k, v) :: m) a = if k = a then v else Memory.read m a := rfl

theorem read_of_not_listed {m : Memory} {a : Nat} (h : ∀ c ∈ m, c.1 ≠ a) : m.read a = unlistedByte := by
  induction m with
  | nil => rfl
  | cons c m ih =>
    obtain ⟨k, v⟩ := c
    rw [read_cons, if_neg (h (k, v) List.mem_cons_self), ih fun c hc => h c (List.mem_cons_of_mem _ hc)]

theorem mem_dropCells {m : Memory} {a count : Nat} {c : Host.Cell} :
    c ∈ m.dropCells a count ↔ c ∈ m ∧ ¬(a ≤ c.1 ∧ c.1 < a + count) := by
  simp [dropCells, List.mem_filter, imp_iff_not_or]

theorem read_dropCells (m : Memory) (a count b : Nat) :
    (m.dropCells a count).read b = if a ≤ b ∧ b < a + count then unlistedByte else m.read b := by
  induction m with
  | nil => simp [dropCells, read_nil]
  | cons c m ih =>
    obtain ⟨k, v⟩ := c
    by_cases hk : a ≤ k ∧ k < a + count
    · have : dropCells ((k, v) :: m) a count = dropCells m a count := by simp [dropCells, hk]
      rw [this, ih, read_cons]
      split
      · rfl
      · rename_i hb
        rw [if_neg]
        rintro rfl
        exact hb hk
    · have : dropCells ((k, v) :: m) a count = (k, v) :: dropCells m a count := by
        simp only [dropCells, List.filter_cons]
        rw [if_pos]
        simpa [imp_iff_not_or, Nat.not_le] using hk
      rw [this, read_cons, ih, read_cons]
      by_cases hkb : k = b
      · subst hkb; simp [hk]
      · simp [hkb]

theorem read_insertCell (m : Memory) (a : Nat) (v : Byte) (h : ∀ c ∈ m, c.1 ≠ a) (b : Nat) :
    (insertCell a v m).read b = if a = b then v else m.read b := by
  induction m with
  | nil => rfl
  | cons c m ih =>
    obtain ⟨k, w⟩ := c
    have hk : k ≠ a := h (k, w) List.mem_cons_self
    unfold insertCell
    split
    · rw [read_cons]
    · rw [read_cons, ih fun c hc => h c (List.mem_cons_of_mem _ hc), read_cons]
      by_cases hab : a = b
      · subst hab; simp [hk]
      · simp [hab]

theorem not_listed_dropCells_one (m : Memory) (a : Nat) : ∀ c ∈ m.dropCells a 1, c.1 ≠ a := by
  intro c hc
  have := (mem_dropCells.1 hc).2
  omega

/-- What any byte reads as after a write. -/
theorem read_write (m : Memory) (a : Nat) (v : Byte) (b : Nat) :
    (m.write a v).read b = if a = b then v else m.read b := by
  have hd : (m.dropCells a 1).read b = if a = b then unlistedByte else m.read b := by
    rw [read_dropCells]
    by_cases hab : a = b
    · simp [hab]
    · rw [if_neg (by omega), if_neg hab]
  unfold write
  split
  · rename_i hv
    rw [hd, hv]
  · rw [read_insertCell _ _ _ (not_listed_dropCells_one m a), hd]
    split <;> rfl

/-- A read after a write to the same place gives the value written. -/
@[simp] theorem read_write_same (m : Memory) (a : Nat) (v : Byte) : (m.write a v).read a = v := by
  rw [read_write, if_pos rfl]

/-- A write leaves every other place alone. -/
theorem read_write_other (m : Memory) {a b : Nat} (v : Byte) (h : a ≠ b) : (m.write a v).read b = m.read b := by
  rw [read_write, if_neg h]

theorem read_orByte (m : Memory) (a : Nat) (x : Byte) (b : Nat) :
    (m.orByte a x).read b = if a = b then m.read a ||| x else m.read b := read_write m a _ b

theorem read_orByte_other (m : Memory) {a b : Nat} (x : Byte) (h : a ≠ b) : (m.orByte a x).read b = m.read b :=
  read_write_other m _ h

theorem read_zeroFill (m : Memory) (a count b : Nat) :
    (m.zeroFill a count).read b = if a ≤ b ∧ b < a + count then 0 else m.read b := read_dropCells m a count b

/-! ### The canonical form -/

theorem nil_wf : Memory.wf [] := ⟨List.Pairwise.nil, by simp⟩

theorem wf_tail {c : Host.Cell} {m : Memory} (h : Memory.wf (c :: m)) : Memory.wf m :=
  ⟨(List.pairwise_cons.1 h.1).2, fun d hd => h.2 d (List.mem_cons_of_mem _ hd)⟩

theorem dropCells_wf {m : Memory} (h : m.wf) (a count : Nat) : (m.dropCells a count).wf :=
  ⟨h.1.sublist List.filter_sublist, fun c hc => h.2 c (mem_dropCells.1 hc).1⟩

theorem mem_insertCell {m : Memory} {a : Nat} {v : Byte} {c : Host.Cell} (h : c ∈ insertCell a v m) :
    c = (a, v) ∨ c ∈ m := by
  induction m with
  | nil => exact .inl (by simpa [insertCell] using h)
  | cons d m ih =>
    obtain ⟨k, w⟩ := d
    unfold insertCell at h
    split at h
    · exact List.mem_cons.1 h
    · rcases List.mem_cons.1 h with rfl | h
      · exact .inr List.mem_cons_self
      · exact (ih h).imp_right (List.mem_cons_of_mem _)

theorem insertCell_wf {m : Memory} {a : Nat} {v : Byte} (h : m.wf) (ha : ∀ c ∈ m, c.1 ≠ a) (hv : v ≠ unlistedByte) :
    (insertCell a v m).wf := by
  induction m with
  | nil => exact ⟨List.pairwise_singleton _ _, by simpa [insertCell] using hv⟩
  | cons d m ih =>
    obtain ⟨k, w⟩ := d
    have hk : k ≠ a := ha (k, w) List.mem_cons_self
    have hhead := (List.pairwise_cons.1 h.1).1
    unfold insertCell
    split
    · rename_i hlt
      refine ⟨List.pairwise_cons.2 ⟨fun c hc => ?_, h.1⟩, fun c hc => ?_⟩
      · rcases List.mem_cons.1 hc with rfl | hc
        · exact hlt
        · exact Nat.lt_trans hlt (hhead c hc)
      · rcases List.mem_cons.1 hc with rfl | hc
        · exact hv
        · exact h.2 c hc
    · rename_i hlt
      have ih := ih (wf_tail h) fun c hc => ha c (List.mem_cons_of_mem _ hc)
      refine ⟨List.pairwise_cons.2 ⟨fun c hc => ?_, ih.1⟩, fun c hc => ?_⟩
      · rcases mem_insertCell hc with rfl | hc
        · show k < a
          omega
        · exact hhead c hc
      · rcases List.mem_cons.1 hc with rfl | hc
        · exact h.2 _ List.mem_cons_self
        · exact ih.2 c hc

theorem write_wf {m : Memory} (h : m.wf) (a : Nat) (v : Byte) : (m.write a v).wf := by
  unfold write
  split
  · exact dropCells_wf h a 1
  · rename_i hv
    exact insertCell_wf (dropCells_wf h a 1) (not_listed_dropCells_one m a) hv

theorem orByte_wf {m : Memory} (h : m.wf) (a : Nat) (x : Byte) : (m.orByte a x).wf := write_wf h a _

theorem zeroFill_wf {m : Memory} (h : m.wf) (a count : Nat) : (m.zeroFill a count).wf := dropCells_wf h a count

theorem writeBE_wf {m : Memory} (h : m.wf) (a count v : Nat) : (m.writeBE a count v).wf := by
  induction count generalizing m a with
  | zero => exact h
  | succ count ih => exact ih (write_wf h a _) (a + 1)

theorem zeroFillLoop_wf {m : Memory} (h : m.wf) (a count : Nat) : (m.zeroFillLoop a count).wf := by
  induction count generalizing m a with
  | zero => exact h
  | succ count ih => exact ih (writeBE_wf h a 1 0) (a + 1)

/-! ### Nothing outside `BUF` gets listed -/

theorem dropCells_within {m : Memory} {bytes : Nat} (h : m.within bytes) (a count : Nat) :
    (m.dropCells a count).within bytes := fun c hc => h c (mem_dropCells.1 hc).1

theorem write_within {m : Memory} {bytes a : Nat} (h : m.within bytes) (ha : a < bytes) (v : Byte) :
    (m.write a v).within bytes := by
  unfold write
  split
  · exact dropCells_within h a 1
  · intro c hc
    rcases mem_insertCell hc with rfl | hc
    · exact ha
    · exact dropCells_within h a 1 c hc

theorem orByte_within {m : Memory} {bytes a : Nat} (h : m.within bytes) (ha : a < bytes) (x : Byte) :
    (m.orByte a x).within bytes := write_within h ha _

theorem zeroFill_within {m : Memory} {bytes : Nat} (h : m.within bytes) (a count : Nat) :
    (m.zeroFill a count).within bytes := dropCells_within h a count

/-! ### Equal reads are equal memories -/

theorem read_of_mem {m : Memory} (h : m.wf) {c : Host.Cell} (hc : c ∈ m) : m.read c.1 = c.2 := by
  induction m with
  | nil => cases hc
  | cons d m ih =>
    obtain ⟨k, w⟩ := d
    rcases List.mem_cons.1 hc with rfl | hc'
    · rw [read_cons, if_pos rfl]
    · have : k < c.1 := (List.pairwise_cons.1 h.1).1 c hc'
      rw [read_cons, if_neg (by omega), ih (wf_tail h) hc']

/-- In canonical form, memories that read alike are the same data. -/
theorem ext_read {m m' : Memory} (h : m.wf) (h' : m'.wf) (heq : ∀ a, m.read a = m'.read a) : m = m' := by
  induction m generalizing m' with
  | nil =>
    cases m' with
    | nil => rfl
    | cons d m' =>
      exact absurd ((read_of_mem h' (List.mem_cons_self)).symm.trans (heq d.1).symm) (h'.2 d List.mem_cons_self)
  | cons c m ih =>
    cases m' with
    | nil => exact absurd ((read_of_mem h List.mem_cons_self).symm.trans (heq c.1)) (h.2 c List.mem_cons_self)
    | cons d m' =>
      have hc : ∀ e ∈ m, c.1 < e.1 := (List.pairwise_cons.1 h.1).1
      have hd : ∀ e ∈ m', d.1 < e.1 := (List.pairwise_cons.1 h'.1).1
      have hrc := read_of_mem h (List.mem_cons_self : c ∈ c :: m)
      have hrd := read_of_mem h' (List.mem_cons_self : d ∈ d :: m')
      have hkey : c.1 = d.1 := by
        rcases Nat.lt_trichotomy c.1 d.1 with hlt | heq' | hgt
        · refine absurd ((hrc.symm.trans (heq c.1)).trans (read_of_not_listed fun e he => ?_)) (h.2 c List.mem_cons_self)
          rcases List.mem_cons.1 he with rfl | he
          · omega
          · have := hd e he
            omega
        · exact heq'
        · refine absurd ((hrd.symm.trans (heq d.1).symm).trans (read_of_not_listed fun e he => ?_)) (h'.2 d List.mem_cons_self)
          rcases List.mem_cons.1 he with rfl | he
          · omega
          · have := hc e he
            omega
      have hcd : c = d := Prod.ext hkey (by rw [← hrc, ← hrd, heq, hkey])
      subst hcd
      refine congrArg (c :: ·) (ih (wf_tail h) (wf_tail h') fun a => ?_)
      have := heq a
      obtain ⟨k, v⟩ := c
      rw [read_cons, read_cons] at this
      by_cases hka : k = a
      · subst hka
        rw [read_of_not_listed fun e he => (Nat.ne_of_gt (hc e he)), read_of_not_listed fun e he => (Nat.ne_of_gt (hd e he))]
      · simpa [hka] using this

end Memory
end Sys2Proof.Machine
end

