-- ==== Sys2Proof/Laws/BitWindow.lean ====
section
/-! SUPPORT. The window and the insertion on `BUF`: canonical form kept, bytes outside the footprint left alone. -/

namespace Sys2Proof.Machine
namespace Memory

@[simp] theorem window_zero (m : Memory) (base p : Nat) : m.window base p 0 = 0 := rfl

theorem window_succ (m : Memory) (base p n : Nat) :
    m.window base p (n + 1) = (m.viewBit base p).toNat * 2 ^ n + m.window base (p + 1) n := rfl

/-- `0 <= Window(c, p, n) < 2^n` (R78). -/
theorem window_lt (m : Memory) (base p n : Nat) : m.window base p n < 2 ^ n := by
  induction n generalizing p with
  | zero => simp
  | succ n ih =>
    have := ih (p + 1)
    have hb : (m.viewBit base p).toNat ≤ 1 := Bool.toNat_le _
    rw [window_succ, Nat.pow_succ]
    nlinarith

@[simp] theorem insert_zero (m : Memory) (base p u : Nat) : m.insert base p u 0 = m := rfl

theorem insert_succ (m : Memory) (base p u n : Nat) :
    m.insert base p u (n + 1) =
      (if u.testBit n then m.orByte (base + p / 8) (bitByte p) else m).insert base (p + 1) u n := rfl

theorem insert_wf {m : Memory} (h : m.wf) (base p u n : Nat) : (m.insert base p u n).wf := by
  induction n generalizing m p with
  | zero => exact h
  | succ n ih =>
    rw [insert_succ]
    split
    · exact ih (orByte_wf h _ _) _
    · exact ih h _

theorem insert_within {m : Memory} {bytes base p n : Nat} (h : m.within bytes) (hr : base + (p + n - 1) / 8 < bytes)
    (u : Nat) : (m.insert base p u n).within bytes := by
  induction n generalizing m p with
  | zero => exact h
  | succ n ih =>
    have hr' : base + (p + 1 + n - 1) / 8 < bytes := by
      have : p + 1 + n - 1 = p + (n + 1) - 1 := by omega
      rwa [this]
    rw [insert_succ]
    split
    · refine ih (orByte_within h ?_ _) hr'
      have : p / 8 ≤ (p + (n + 1) - 1) / 8 := Nat.div_le_div_right (by omega)
      omega
    · exact ih h hr'

/-- An insertion writes bytes of its footprint only (R35, R80). -/
theorem read_insert_outside (m : Memory) {base p n a : Nat} (u : Nat) (h : ¬inFootprint base p n a) :
    (m.insert base p u n).read a = m.read a := by
  induction n generalizing m p with
  | zero => rfl
  | succ n ih =>
    have hlast : p + 1 + n - 1 = p + (n + 1) - 1 := by omega
    have hle : p / 8 ≤ (p + (n + 1) - 1) / 8 := Nat.div_le_div_right (by omega)
    have hmono : p / 8 ≤ (p + 1) / 8 := Nat.div_le_div_right (by omega)
    have hrec : ¬inFootprint base (p + 1) n a := by
      rintro ⟨h1, h2⟩
      rw [hlast] at h2
      exact h ⟨by omega, h2⟩
    rw [insert_succ, ih _ hrec]
    split
    · refine read_orByte_other m _ ?_
      rintro rfl
      exact h ⟨Nat.le_refl _, by omega⟩
    · rfl

/-! ### Bit by bit -/

/-- Bit `n-1-i` of the window value is the `i`-th bit read (R75). -/
theorem window_testBit (m : Memory) (base p n i : Nat) (h : i < n) :
    (m.window base p n).testBit (n - 1 - i) = m.viewBit base (p + i) := by
  induction n generalizing p i with
  | zero => omega
  | succ n ih =>
    have hlt := m.window_lt base (p + 1) n
    rw [window_succ, Nat.mul_comm, Nat.testBit_two_pow_mul_add _ hlt]
    cases i with
    | zero => cases m.viewBit base p <;> simp
    | succ i =>
      have := ih (p + 1) i (by omega)
      rw [if_pos (by omega)]
      convert this using 2 <;> omega

/-- Memories with the same stream bits in a window have the same window value. -/
theorem window_congr {m m' : Memory} {base base' p p' n : Nat}
    (h : ∀ i, i < n → m'.viewBit base' (p' + i) = m.viewBit base (p + i)) :
    m'.window base' p' n = m.window base p n := by
  refine Nat.eq_of_testBit_eq fun j => ?_
  by_cases hj : j < n
  · have h1 := m.window_testBit base p n (n - 1 - j) (by omega)
    have h2 := m'.window_testBit base' p' n (n - 1 - j) (by omega)
    rw [show n - 1 - (n - 1 - j) = j by omega] at h1 h2
    rw [h1, h2, h _ (by omega)]
  · rw [Nat.testBit_eq_false_of_lt (Nat.lt_of_lt_of_le (window_lt _ _ _ _) (Nat.pow_le_pow_right (by omega) (by omega))),
      Nat.testBit_eq_false_of_lt (Nat.lt_of_lt_of_le (window_lt _ _ _ _) (Nat.pow_le_pow_right (by omega) (by omega)))]

/-- What OR-ing one stream bit into its byte does to any bit of any byte. -/
theorem getLsbD_orBit (m : Memory) (base p a j : Nat) (hj : j < 8) :
    ((m.orByte (base + p / 8) (bitByte p)).read a).getLsbD j =
      ((m.read a).getLsbD j || decide (base ≤ a ∧ 8 * (a - base) + (7 - j) = p)) := by
  rw [read_orByte]
  split
  · rename_i h
    subst h
    rw [BitVec.getLsbD_or, bitByte, BitVec.getLsbD_ofNat]
    congr 1
    rw [Nat.testBit_two_pow]
    have : (j < 8) = True := by simp [hj]
    simp only [this, decide_true, Bool.true_and, decide_eq_decide]
    constructor <;> intro h <;> omega
  · rename_i h
    have : ¬(base ≤ a ∧ 8 * (a - base) + (7 - j) = p) := by
      rintro ⟨h1, h2⟩
      apply h
      omega
    simp [this]

/-- What an insertion does to any bit of any byte of `BUF` (R80): bit `j` of byte `a` is stream bit
`8*(a - base) + (7 - j)` of the view. -/
theorem getLsbD_read_insert (m : Memory) (base p u n a j : Nat) (hj : j < 8) :
    ((m.insert base p u n).read a).getLsbD j = ((m.read a).getLsbD j ||
      (decide (base ≤ a ∧ p ≤ 8 * (a - base) + (7 - j) ∧ 8 * (a - base) + (7 - j) < p + n) &&
        u.testBit (p + n - 1 - (8 * (a - base) + (7 - j))))) := by
  induction n generalizing m p with
  | zero =>
    simp
  | succ n ih =>
    rw [insert_succ, ih]
    have hk : p + 1 + n - 1 - (8 * (a - base) + (7 - j)) = p + (n + 1) - 1 - (8 * (a - base) + (7 - j)) := by omega
    rw [hk]
    generalize hK : 8 * (a - base) + (7 - j) = k
    by_cases hb : base ≤ a
    · by_cases hp : k = p
      · subst hp
        have hn : k + (n + 1) - 1 - k = n := by omega
        rw [hn]
        cases hu : u.testBit n
        · simp [hb]
        · simp [hb, getLsbD_orBit _ _ _ _ _ hj, hK]
      · have : (decide (base ≤ a ∧ p + 1 ≤ k ∧ k < p + 1 + n)) = decide (base ≤ a ∧ p ≤ k ∧ k < p + (n + 1)) := by
          rw [decide_eq_decide]; omega
        rw [this]
        congr 1
        cases hu : u.testBit n
        · simp
        · simp [getLsbD_orBit _ _ _ _ _ hj, hK, hp]
    · cases hu : u.testBit n <;> simp [hb, getLsbD_orBit _ _ _ _ _ hj]

/-- What an insertion does to any bit of the stream of its view. -/
theorem viewBit_insert (m : Memory) (base p u n k : Nat) :
    (m.insert base p u n).viewBit base k =
      (m.viewBit base k || (decide (p ≤ k ∧ k < p + n) && u.testBit (p + n - 1 - k))) := by
  have hk : 8 * (base + k / 8 - base) + (7 - (7 - k % 8)) = k := by omega
  have := getLsbD_read_insert m base p u n (base + k / 8) (7 - k % 8) (by omega)
  rw [hk] at this
  simpa [viewBit, laneBit, viewByte] using this

/-! ### The insertion datapath keeps the canonical form -/

theorem putBits_wf {m : Memory} (h : m.wf) (base it x k : Nat) : (m.putBits base it x k).1.wf := by
  unfold putBits
  dsimp only
  split
  · exact orByte_wf (orByte_wf h _ _) _ _
  · exact orByte_wf h _ _

theorem putBytes_wf {m : Memory} (h : m.wf) (base it u q : Nat) : (m.putBytes base it u q).1.wf := by
  induction q generalizing m it with
  | zero => exact h
  | succ q ih => exact ih (putBits_wf h base it _ 8) _

theorem insertChunks_wf {m : Memory} (h : m.wf) (base p u n : Nat) : (m.insertChunks base p u n).1.wf := by
  unfold insertChunks
  dsimp only
  split
  · exact putBytes_wf (putBits_wf h _ _ _ _) _ _ _ _
  · exact putBytes_wf h _ _ _ _

end Memory

/-- `bytesBE` is a number of `8 * count` bits. -/
theorem bytesBE_lt (lane : Nat → Byte) (a count : Nat) : bytesBE lane a count < 256 ^ count := by
  induction count generalizing a with
  | zero => simp [bytesBE]
  | succ count ih =>
    have h1 := ih (a + 1)
    have h2 := (lane a).isLt
    unfold bytesBE
    rw [Nat.pow_succ]
    nlinarith

end Sys2Proof.Machine
end

