-- ==== Sys2Proof/Laws/Checks.lean ====
section
/-! SUPPORT. Everything the shared operations of the commands can answer. -/

namespace Sys2Proof.Machine

/-! ### The checks -/

theorem Verdict.andThen_eq_pass {a b : Verdict} : a.andThen b = .pass ↔ a = .pass ∧ b = .pass := by
  cases a <;> simp [Verdict.andThen]

theorem Verdict.andThen_eq_fail {a b : Verdict} {st : Status} :
    a.andThen b = .fail st ↔ a = .fail st ∨ a = .pass ∧ b = .fail st := by
  cases a <;> simp [Verdict.andThen]

theorem Verdict.andThen_eq_undefined {a b : Verdict} {why : Refusal} :
    a.andThen b = .undefined why ↔ a = .undefined why ∨ a = .pass ∧ b = .undefined why := by
  cases a <;> simp [Verdict.andThen]

theorem checkWidth_eq_pass {cfg : Config} {w n : Nat} : checkWidth cfg w n = .pass ↔ 1 ≤ n ∧ n ≤ w := by
  unfold checkWidth
  split
  · simp_all
  · cases cfg.chkWidth <;> simp_all

theorem checkWidth_eq_fail {cfg : Config} {w n : Nat} {st : Status} :
    checkWidth cfg w n = .fail st ↔ ¬(1 ≤ n ∧ n ≤ w) ∧ cfg.chkWidth = true ∧ st = .einvalidArg := by
  unfold checkWidth
  split
  · simp_all
  · cases cfg.chkWidth <;> simp_all [eq_comm]

theorem checkWidth_eq_undefined {cfg : Config} {w n : Nat} {why : Refusal} :
    checkWidth cfg w n = .undefined why ↔ ¬(1 ≤ n ∧ n ≤ w) ∧ cfg.chkWidth = false ∧ why = .widthUnchecked := by
  unfold checkWidth
  split
  · simp_all
  · cases cfg.chkWidth <;> simp_all [eq_comm]

theorem checkBounds_eq_pass {cfg : Config} {c : Cursor} {n : Nat} : checkBounds cfg c n = .pass ↔ n ≤ c.remaining := by
  unfold checkBounds
  split
  · simp_all
  · cases cfg.chkBounds <;> simp_all

theorem checkBounds_eq_fail {cfg : Config} {c : Cursor} {n : Nat} {st : Status} :
    checkBounds cfg c n = .fail st ↔ c.remaining < n ∧ cfg.chkBounds = true ∧ st = .efull := by
  unfold checkBounds
  split
  · simp_all
  · cases cfg.chkBounds <;> simp_all [eq_comm]

theorem checkBounds_eq_undefined {cfg : Config} {c : Cursor} {n : Nat} {why : Refusal} :
    checkBounds cfg c n = .undefined why ↔ c.remaining < n ∧ cfg.chkBounds = false ∧ why = .boundsUnchecked := by
  unfold checkBounds
  split
  · simp_all
  · cases cfg.chkBounds <;> simp_all [eq_comm]

theorem checkRange_eq_pass {cfg : Config} {signed : Bool} {w n : Nat} {a : Word} :
    checkRange cfg signed w n a = .pass ↔ rangeOK signed w n a = true ∨ cfg.chkRange = false := by
  cases hr : rangeOK signed w n a <;> cases hc : cfg.chkRange <;> simp [checkRange, hr, hc]

theorem checkRange_eq_fail {cfg : Config} {signed : Bool} {w n : Nat} {a : Word} {st : Status} :
    checkRange cfg signed w n a = .fail st ↔
      rangeOK signed w n a = false ∧ cfg.chkRange = true ∧ st = .einvalidArg := by
  cases hr : rangeOK signed w n a <;> cases hc : cfg.chkRange <;> simp [checkRange, hr, hc, eq_comm]

theorem checkRange_ne_undefined {cfg : Config} {signed : Bool} {w n : Nat} {a : Word} {why : Refusal} :
    checkRange cfg signed w n a ≠ .undefined why := by
  cases hr : rangeOK signed w n a <;> cases hc : cfg.chkRange <;> simp [checkRange, hr, hc]

theorem checkExtract_eq_pass {cfg : Config} {c : Cursor} {w n : Nat} :
    checkExtract cfg c w n = .pass ↔ (1 ≤ n ∧ n ≤ w) ∧ n ≤ c.remaining := by
  rw [checkExtract, Verdict.andThen_eq_pass, checkWidth_eq_pass, checkBounds_eq_pass]

theorem checkAdd_eq_pass {cfg : Config} {c : Cursor} {signed : Bool} {w n : Nat} {a : Word} :
    checkAdd cfg c signed w n a = .pass ↔
      (1 ≤ n ∧ n ≤ w) ∧ n ≤ c.remaining ∧ (rangeOK signed w n a = true ∨ cfg.chkRange = false) := by
  rw [checkAdd, Verdict.andThen_eq_pass, Verdict.andThen_eq_pass, checkWidth_eq_pass, checkBounds_eq_pass,
    checkRange_eq_pass]

/-! ### What the shared operations answer -/

/-- A checked command answers a next state in two ways: it runs, or it is rejected. -/
theorem guarded_eq_next {v : Verdict} {s t : State} {run : Answer} :
    guarded v s run = .next t ↔ v = .pass ∧ run = .next t ∨ ∃ st, v = .fail st ∧ t = s.reject st := by
  cases v <;> simp [guarded, eq_comm]

theorem guarded_eq_refused {v : Verdict} {s : State} {run : Answer} {why : Refusal} :
    guarded v s run = .refused why ↔ v = .pass ∧ run = .refused why ∨ v = .undefined why := by
  cases v <;> simp [guarded]

theorem extractWindow_eq_next {signed : Bool} {n : Nat} {s t : State} :
    extractWindow signed n s = .next t ↔ s.p.reaches s.cfg.bufBytes n ∧
      t = { s with p := s.p.advance n }.respond .ok
        (resultOf signed n (s.buf.window s.p.base.toNat s.p.pos.toNat n)) := by
  unfold extractWindow
  split <;> simp_all [eq_comm]

theorem extractWindow_eq_refused {signed : Bool} {n : Nat} {s : State} {why : Refusal} :
    extractWindow signed n s = .refused why ↔ ¬s.p.reaches s.cfg.bufBytes n ∧ why = .outsideBuf := by
  unfold extractWindow
  split <;> simp_all [eq_comm]

theorem insertWindow_eq_next {n u : Nat} {s t : State} :
    insertWindow n u s = .next t ↔ s.k.reaches s.cfg.bufBytes n ∧
      t = { s with buf := s.buf.insert s.k.base.toNat s.k.pos.toNat u n, k := s.k.advance n }.respond .ok 0 := by
  unfold insertWindow
  split <;> simp_all [eq_comm]

theorem insertWindow_eq_refused {n u : Nat} {s : State} {why : Refusal} :
    insertWindow n u s = .refused why ↔ ¬s.k.reaches s.cfg.bufBytes n ∧ why = .outsideBuf := by
  unfold insertWindow
  split <;> simp_all [eq_comm]

/-- Everything an integer EXTRACT does when it answers a next state. -/
theorem extractInteger_next_cases {signed : Bool} {w n : Nat} {s t : State} (h : extractInteger signed w n s = .next t) :
    (((1 ≤ n ∧ n ≤ w) ∧ n ≤ s.p.remaining) ∧ s.p.reaches s.cfg.bufBytes n ∧
      t = { s with p := s.p.advance n }.respond .ok
        (resultOf signed n (s.buf.window s.p.base.toNat s.p.pos.toNat n))) ∨
    ∃ st, checkExtract s.cfg s.p w n = .fail st ∧ t = s.reject st := by
  rcases guarded_eq_next.1 h with ⟨hv, hr⟩ | hf
  · exact .inl ⟨checkExtract_eq_pass.1 hv, extractWindow_eq_next.1 hr⟩
  · exact .inr hf

/-- Everything a float EXTRACT does when it answers a next state. -/
theorem extractPattern_next_cases {w : Nat} {s t : State} (h : extractPattern w s = .next t) :
    (w ≤ s.p.remaining ∧ s.p.reaches s.cfg.bufBytes w ∧
      t = { s with p := s.p.advance w }.respond .ok
        (resultOf false w (s.buf.window s.p.base.toNat s.p.pos.toNat w))) ∨
    ∃ st, checkBounds s.cfg s.p w = .fail st ∧ t = s.reject st := by
  rcases guarded_eq_next.1 h with ⟨hv, hr⟩ | hf
  · exact .inl ⟨checkBounds_eq_pass.1 hv, extractWindow_eq_next.1 hr⟩
  · exact .inr hf

/-- Everything an integer ADD does when it answers a next state. -/
theorem addInteger_next_cases {signed : Bool} {w n : Nat} {value : Word} {s t : State}
    (h : addInteger signed w value n s = .next t) :
    (((1 ≤ n ∧ n ≤ w) ∧ n ≤ s.k.remaining ∧ (rangeOK signed w n value = true ∨ s.cfg.chkRange = false)) ∧
      s.k.reaches s.cfg.bufBytes n ∧
      t = { s with buf := s.buf.insert s.k.base.toNat s.k.pos.toNat (fieldOf w n value) n,
                   k := s.k.advance n }.respond .ok 0) ∨
    ∃ st, checkAdd s.cfg s.k signed w n value = .fail st ∧ t = s.reject st := by
  rcases guarded_eq_next.1 h with ⟨hv, hr⟩ | hf
  · exact .inl ⟨checkAdd_eq_pass.1 hv, insertWindow_eq_next.1 hr⟩
  · exact .inr hf

/-- Everything a float ADD does when it answers a next state. -/
theorem addPattern_next_cases {w : Nat} {pattern : Word} {s t : State} (h : addPattern w pattern s = .next t) :
    (w ≤ s.k.remaining ∧ s.k.reaches s.cfg.bufBytes w ∧
      t = { s with buf := s.buf.insert s.k.base.toNat s.k.pos.toNat (lowBits w pattern) w,
                   k := s.k.advance w }.respond .ok 0) ∨
    ∃ st, checkBounds s.cfg s.k w = .fail st ∧ t = s.reject st := by
  rcases guarded_eq_next.1 h with ⟨hv, hr⟩ | hf
  · exact .inl ⟨checkBounds_eq_pass.1 hv, insertWindow_eq_next.1 hr⟩
  · exact .inr hf

/-- Everything SKIP does when it answers a next state. -/
theorem execSkip_next_cases {count : Word} {s t : State} (h : execSkip count s = .next t) :
    (count.toNat ≤ s.p.remaining ∧ t = { s with p := s.p.advance count.toNat }.respond .ok 0) ∨
    ∃ st, checkBounds s.cfg s.p count.toNat = .fail st ∧ t = s.reject st := by
  rcases guarded_eq_next.1 h with ⟨hv, hr⟩ | hf
  · exact .inl ⟨checkBounds_eq_pass.1 hv, by injection hr with hr; exact hr.symm⟩
  · exact .inr hf

/-- Everything KINIT does when it answers a next state. -/
theorem execKinit_next_cases {base cap : Word} {z : Bool} {s t : State} (h : execKinit base cap z s = .next t) :
    (z = true ∧ zeroFillInside s.cfg.bufBytes base cap ∧
      t = { s with buf := s.buf.zeroFill base.toNat (ceil8 cap.toNat), k := Cursor.bind base cap }.respond .ok 0) ∨
    (z = false ∧ t = { s with k := Cursor.bind base cap }.respond .ok 0) := by
  unfold execKinit at h
  cases z with
  | true =>
    simp only [if_true] at h
    split at h
    · rename_i hin
      injection h with h
      exact .inl ⟨rfl, hin, h.symm⟩
    · cases h
  | false => exact .inr ⟨rfl, by injection h with h; exact h.symm⟩

/-- Everything a host write does when it answers a next state. -/
theorem State.hostWrite_next_cases {s t : State} {a : Nat} {v : Byte} (h : s.hostWrite a v = .next t) :
    a < s.cfg.bufBytes ∧ t = { s with buf := s.buf.write a v } := by
  unfold State.hostWrite at h
  split at h
  · rename_i ha
    injection h with h
    exact ⟨ha, h.symm⟩
  · cases h

end Sys2Proof.Machine
end

