-- ==== Sys2Proof/Laws/Decode.lean ====
section
/-! SUPPORT. The fields of a control word the encoder builds, and the bytes of a record. -/

namespace Sys2Proof

/-- The requested width survives the encoder when it fits `N` (R51). -/
theorem ofNat8_toNat {n : Nat} (h : encodableWidth n = true) : (BitVec.ofNat 8 n).toNat = n := by
  have : n ≤ 255 := by simpa [encodableWidth] using h
  rw [BitVec.toNat_ofNat, Nat.mod_eq_of_lt (by omega)]

section fields
variable (op x : BitVec 8) (a b : Word)

/-- `CW[15]` is the opcode byte's bit 7 (R51). -/
theorem unitK_append : (Record.mk (op ++ x) a b).unitK = op.getLsbD 7 := by
  rw [Record.unitK, BitVec.getLsbD_append]
  rfl

theorem bit11_append : (Record.mk (op ++ x) a b).bit11 = op.getLsbD 3 := by
  rw [Record.bit11, BitVec.getLsbD_append]
  rfl

theorem flagSZ_append : (Record.mk (op ++ x) a b).flagSZ = op.getLsbD 2 := by
  rw [Record.flagSZ, BitVec.getLsbD_append]
  rfl

theorem cls_append : (Record.mk (op ++ x) a b).cls = op.toNat / 16 % 8 := by
  have hx := x.isLt
  simp only [Record.cls, BitVec.extractLsb'_toNat, BitVec.toNat_append, Nat.shiftRight_eq_div_pow, Nat.shiftLeft_eq]
  rw [← Nat.shiftLeft_eq, ← Nat.shiftLeft_add_eq_or_of_lt hx, Nat.shiftLeft_eq]
  omega

theorem sz_append : (Record.mk (op ++ x) a b).sz = op.toNat % 4 := by
  have hx := x.isLt
  simp only [Record.sz, BitVec.extractLsb'_toNat, BitVec.toNat_append, Nat.shiftRight_eq_div_pow]
  rw [← Nat.shiftLeft_add_eq_or_of_lt hx, Nat.shiftLeft_eq]
  omega

theorem nBits_append : (Record.mk (op ++ x) a b).nBits = x.toNat := by
  have hx := x.isLt
  simp only [Record.nBits, BitVec.extractLsb'_toNat, BitVec.toNat_append, Nat.shiftRight_eq_div_pow]
  rw [← Nat.shiftLeft_add_eq_or_of_lt hx, Nat.shiftLeft_eq]
  omega

end fields

/-! ### Bytes -/

@[simp] theorem length_beBytes (count v : Nat) : (beBytes count v).length = count := by
  induction count with
  | zero => rfl
  | succ count ih => simp [beBytes, ih]

/-- Big-endian bytes give their number back, cut to their length (R32). -/
theorem beNat_beBytes (count v : Nat) : beNat (beBytes count v) = v % 256 ^ count := by
  induction count with
  | zero => simp [beBytes, beNat, Nat.mod_one]
  | succ count ih =>
    have hsplit := Nat.mod_mul (x := v) (a := 256 ^ count) (b := 256)
    rw [beBytes, beNat, ih, length_beBytes, BitVec.toNat_ofNat, Nat.pow_succ 256, hsplit, Nat.mul_comm, Nat.add_comm]

end Sys2Proof
end

