-- ==== Sys2Proof/Laws/Exec.lean ====
section
/-! SUPPORT. Every command is one of seven shapes, and what its meaning is by its shape: later proofs case on the shape,
not on 23 constructors. -/

namespace Sys2Proof
open Sys2Proof.Machine

/-- The shapes of the commands. -/
theorem Instr.shapes (i : Instr) :
    (∃ base cap, i = .pinit base cap) ∨ (∃ base cap z, i = .kinit base cap z) ∨ (∃ count, i = .skip count) ∨
    (∃ signed w n, i.request = .integer signed w n ∧ i.isParser = true) ∨
    (∃ w, i.request = .float w ∧ i.isParser = true) ∨
    (∃ signed w n, i.request = .integer signed w n ∧ i.isParser = false) ∨
    (∃ w, i.request = .float w ∧ i.isParser = false) := by
  cases i <;> simp [Instr.request, Instr.isParser]

section meanings
variable {i : Instr} {signed : Bool} {w n : Nat}

theorem exec_extractInteger (hr : i.request = .integer signed w n) (hp : i.isParser = true) (s : State) :
    exec i s = extractInteger signed w n s := by
  cases i <;> simp only [Instr.request, Instr.isParser, Request.integer.injEq, reduceCtorEq] at hr hp <;>
    (obtain ⟨rfl, rfl, rfl⟩ := hr; rfl)

theorem exec_extractPattern (hr : i.request = .float w) (hp : i.isParser = true) (s : State) :
    exec i s = extractPattern w s := by
  cases i <;> simp only [Instr.request, Instr.isParser, Request.float.injEq, reduceCtorEq] at hr hp <;>
    (obtain rfl := hr; rfl)

theorem exec_addInteger (hr : i.request = .integer signed w n) (hp : i.isParser = false) (s : State) :
    exec i s = addInteger signed w i.addend n s := by
  cases i <;> simp only [Instr.request, Instr.isParser, Request.integer.injEq, reduceCtorEq] at hr hp <;>
    (obtain ⟨rfl, rfl, rfl⟩ := hr; rfl)

theorem exec_addPattern (hr : i.request = .float w) (hp : i.isParser = false) (s : State) :
    exec i s = addPattern w i.addend s := by
  cases i <;> simp only [Instr.request, Instr.isParser, Request.float.injEq, reduceCtorEq] at hr hp <;>
    (obtain rfl := hr; rfl)

/-- The type widths of the transfers (R4). -/
theorem Instr.integer_width (hr : i.request = .integer signed w n) : w = 8 ∨ w = 16 ∨ w = 32 ∨ w = 64 := by
  cases i <;> simp only [Instr.request, Request.integer.injEq, reduceCtorEq] at hr <;> omega

theorem Instr.float_width (hr : i.request = .float w) : w = 32 ∨ w = 64 := by
  cases i <;> simp only [Instr.request, Request.float.injEq, reduceCtorEq] at hr <;> omega

end meanings

/-! ### What a request says about its command -/

section requests
variable {i : Instr} {signed : Bool} {w n : Nat}

theorem Instr.bits_integer (hr : i.request = .integer signed w n) : i.bits = n := by rw [Instr.bits, hr]
theorem Instr.bits_float (hr : i.request = .float w) : i.bits = w := by rw [Instr.bits, hr]
theorem Instr.isInit_integer (hr : i.request = .integer signed w n) : i.isInit = false := by rw [Instr.isInit, hr]
theorem Instr.isInit_float (hr : i.request = .float w) : i.isInit = false := by rw [Instr.isInit, hr]
theorem Instr.isTransfer_integer (hr : i.request = .integer signed w n) : i.isTransfer = true := by
  rw [Instr.isTransfer, hr]
theorem Instr.isTransfer_float (hr : i.request = .float w) : i.isTransfer = true := by rw [Instr.isTransfer, hr]
theorem Instr.widthLegal_integer (hr : i.request = .integer signed w n) :
    i.widthLegal = true ↔ 1 ≤ n ∧ n ≤ w := by rw [Instr.widthLegal, hr]; simp
theorem Instr.widthLegal_float (hr : i.request = .float w) : i.widthLegal = true := by rw [Instr.widthLegal, hr]
theorem Instr.valueFits_integer (hr : i.request = .integer signed w n) :
    i.valueFits = (i.isParser || rangeOK signed w n i.addend) := by rw [Instr.valueFits, hr]
theorem Instr.valueFits_float (hr : i.request = .float w) : i.valueFits = true := by rw [Instr.valueFits, hr]
theorem Instr.isExtract_eq (i : Instr) : i.isExtract = (i.isTransfer && i.isParser) := rfl
theorem Instr.isAdd_eq (i : Instr) : i.isAdd = (i.isTransfer && !i.isParser) := rfl

end requests

/-! ### Everything a command can do when it answers a next state -/

/-- A command that answers a next state binds a cursor, or moves one by its bits with the effect of its kind, or fails with
one response and no other change. -/
theorem exec_next_cases {i : Instr} {s t : State} (h : exec i s = .next t) :
    (∃ base cap, i = .pinit base cap ∧ t = { s with p := Cursor.bind base cap }.respond .ok 0) ∨
    (∃ base cap, i = .kinit base cap true ∧ zeroFillInside s.cfg.bufBytes base cap ∧
      t = { s with buf := s.buf.zeroFill base.toNat (ceil8 cap.toNat), k := Cursor.bind base cap }.respond .ok 0) ∨
    (∃ base cap, i = .kinit base cap false ∧ t = { s with k := Cursor.bind base cap }.respond .ok 0) ∨
    (∃ count, i = .skip count ∧ i.bits ≤ s.p.remaining ∧ t = { s with p := s.p.advance i.bits }.respond .ok 0) ∨
    (∃ signed, i.isExtract = true ∧ i.widthLegal = true ∧ 1 ≤ i.bits ∧ i.bits ≤ s.p.remaining ∧
      s.p.reaches s.cfg.bufBytes i.bits ∧ t = { s with p := s.p.advance i.bits }.respond .ok
        (resultOf signed i.bits (s.buf.window s.p.base.toNat s.p.pos.toNat i.bits))) ∨
    (∃ w, i.isAdd = true ∧ i.widthLegal = true ∧ 1 ≤ i.bits ∧ i.bits ≤ w ∧ i.bits ≤ s.k.remaining ∧
      (i.valueFits = true ∨ s.cfg.chkRange = false) ∧ s.k.reaches s.cfg.bufBytes i.bits ∧
      t = { s with buf := s.buf.insert s.k.base.toNat s.k.pos.toNat (fieldOf w i.bits i.addend) i.bits,
                   k := s.k.advance i.bits }.respond .ok 0) ∨
    (∃ st, st ≠ .ok ∧ i.isInit = false ∧ t = s.reject st) := by
  rcases i.shapes with ⟨b, c, rfl⟩ | ⟨b, c, z, rfl⟩ | ⟨c, rfl⟩ | ⟨sg, w, n, hr, hp⟩ | ⟨w, hr, hp⟩ | ⟨sg, w, n, hr, hp⟩ |
    ⟨w, hr, hp⟩
  · cases h
    exact .inl ⟨b, c, rfl, rfl⟩
  · rcases execKinit_next_cases h with ⟨rfl, hi, rfl⟩ | ⟨rfl, rfl⟩
    · exact .inr (.inl ⟨b, c, rfl, hi, rfl⟩)
    · exact .inr (.inr (.inl ⟨b, c, rfl, rfl⟩))
  · rcases execSkip_next_cases h with ⟨h1, rfl⟩ | ⟨st, h1, rfl⟩
    · exact .inr (.inr (.inr (.inl ⟨c, rfl, h1, rfl⟩)))
    · obtain ⟨-, -, rfl⟩ := checkBounds_eq_fail.1 h1
      exact .inr (.inr (.inr (.inr (.inr (.inr ⟨_, by decide, rfl, rfl⟩)))))
  · rw [exec_extractInteger hr hp] at h
    have hi := Instr.isInit_integer hr
    have ht := Instr.isTransfer_integer hr
    have hw := Instr.widthLegal_integer hr
    obtain rfl := Instr.bits_integer hr
    rcases extractInteger_next_cases h with ⟨⟨h1, h2⟩, h3, rfl⟩ | ⟨st, h1, rfl⟩
    · exact .inr (.inr (.inr (.inr (.inl ⟨sg, by rw [Instr.isExtract_eq, ht, hp]; rfl, hw.2 h1, h1.1, h2, h3, rfl⟩))))
    · rw [checkExtract, Verdict.andThen_eq_fail, checkWidth_eq_fail, checkBounds_eq_fail] at h1
      refine .inr (.inr (.inr (.inr (.inr (.inr ⟨st, ?_, hi, rfl⟩)))))
      rcases h1 with ⟨-, -, rfl⟩ | ⟨-, -, -, rfl⟩ <;> decide
  · rw [exec_extractPattern hr hp] at h
    have hi := Instr.isInit_float hr
    have ht := Instr.isTransfer_float hr
    have hw := Instr.widthLegal_float hr
    have h0 : 1 ≤ w := by rcases Instr.float_width hr with rfl | rfl <;> omega
    obtain rfl := Instr.bits_float hr
    rcases extractPattern_next_cases h with ⟨h2, h3, rfl⟩ | ⟨st, h1, rfl⟩
    · exact .inr (.inr (.inr (.inr (.inl ⟨false, by rw [Instr.isExtract_eq, ht, hp]; rfl, hw, h0, h2, h3, rfl⟩))))
    · obtain ⟨-, -, rfl⟩ := checkBounds_eq_fail.1 h1
      exact .inr (.inr (.inr (.inr (.inr (.inr ⟨_, by decide, hi, rfl⟩)))))
  · rw [exec_addInteger hr hp] at h
    have hi := Instr.isInit_integer hr
    have ht := Instr.isTransfer_integer hr
    have hw := Instr.widthLegal_integer hr
    have hv := Instr.valueFits_integer hr
    obtain rfl := Instr.bits_integer hr
    rcases addInteger_next_cases h with ⟨⟨h1, h2, h3⟩, h4, rfl⟩ | ⟨st, h1, rfl⟩
    · rw [hp, Bool.false_or] at hv
      exact .inr (.inr (.inr (.inr (.inr (.inl ⟨w, by rw [Instr.isAdd_eq, ht, hp]; rfl, hw.2 h1, h1.1, h1.2, h2,
        by rwa [hv], h4, rfl⟩)))))
    · rw [checkAdd, Verdict.andThen_eq_fail, Verdict.andThen_eq_fail, checkWidth_eq_fail, checkBounds_eq_fail,
        checkRange_eq_fail] at h1
      refine .inr (.inr (.inr (.inr (.inr (.inr ⟨st, ?_, hi, rfl⟩)))))
      rcases h1 with ⟨-, -, rfl⟩ | ⟨-, ⟨-, -, rfl⟩ | ⟨-, -, -, rfl⟩⟩ <;> decide
  · rw [exec_addPattern hr hp] at h
    have hi := Instr.isInit_float hr
    have ht := Instr.isTransfer_float hr
    have hw := Instr.widthLegal_float hr
    have hv := Instr.valueFits_float hr
    have h0 : 1 ≤ w := by rcases Instr.float_width hr with rfl | rfl <;> omega
    obtain rfl := Instr.bits_float hr
    rcases addPattern_next_cases h with ⟨h2, h3, rfl⟩ | ⟨st, h1, rfl⟩
    · refine .inr (.inr (.inr (.inr (.inr (.inl ⟨i.bits, by rw [Instr.isAdd_eq, ht, hp]; rfl, hw, h0, Nat.le_refl _, h2,
        .inl hv, h3, ?_⟩)))))
      rw [fieldOf, Nat.mod_eq_of_lt (show lowBits i.bits i.addend < 2 ^ i.bits from Nat.mod_lt _ (Nat.two_pow_pos _))]
    · obtain ⟨-, -, rfl⟩ := checkBounds_eq_fail.1 h1
      exact .inr (.inr (.inr (.inr (.inr (.inr ⟨_, by decide, hi, rfl⟩)))))

end Sys2Proof
end

