-- ==== Sys2Proof/Laws/PerInstr.lean ====
section
/-! SUPPORT. The family `TableRow`: the encoding of a command matches the row of the opcode table that has its mnemonic
(R53), with every operand at every value. One lemma per constructor. -/

namespace Sys2Proof.Laws.TableRow

/-- Some row of R53 with the command's mnemonic matches its control word. -/
def Statement (i : Instr) : Prop := ∃ row ∈ opcodeTable, row.mnemonic = i.mnemonic ∧ row.hits (encode i).cw = true

/-- A row that masks the low byte away matches the opcode byte with any width. -/
theorem hits_of_op (name : String) (op x : BitVec 8) : (OpcodeRow.mk name 0xFF00 (op ++ 0#8)).hits (op ++ x) = true := by
  have hmask : (0xFF00 : BitVec 16) = 0xFF#8 ++ 0#8 := by decide
  have hop : op &&& 0xFF#8 = op := by
    rw [show (0xFF#8 : BitVec 8) = BitVec.allOnes 8 by decide, BitVec.and_allOnes]
  simp only [OpcodeRow.hits, beq_iff_eq]
  rw [hmask, BitVec.and_append, hop, BitVec.and_zero]

theorem pinit (base cap : Word) : Statement (.pinit base cap) := ⟨⟨"PINIT", 0xFFFF, 0x0000⟩, by decide, rfl, by show OpcodeRow.hits _ (controlWord _ 0) = true; decide⟩
theorem skip (count : Word) : Statement (.skip count) := ⟨⟨"SKIP", 0xFFFF, 0x1000⟩, by decide, rfl, by show OpcodeRow.hits _ (controlWord _ 0) = true; decide⟩
theorem extractU8 (n : Nat) : Statement (.extractU8 n) := ⟨_, by decide, rfl, hits_of_op "EXTRACT_U8" 0x20#8 _⟩
theorem extractU16 (n : Nat) : Statement (.extractU16 n) := ⟨_, by decide, rfl, hits_of_op "EXTRACT_U16" 0x21#8 _⟩
theorem extractU32 (n : Nat) : Statement (.extractU32 n) := ⟨_, by decide, rfl, hits_of_op "EXTRACT_U32" 0x22#8 _⟩
theorem extractU64 (n : Nat) : Statement (.extractU64 n) := ⟨_, by decide, rfl, hits_of_op "EXTRACT_U64" 0x23#8 _⟩
theorem extractI8 (n : Nat) : Statement (.extractI8 n) := ⟨_, by decide, rfl, hits_of_op "EXTRACT_I8" 0x24#8 _⟩
theorem extractI16 (n : Nat) : Statement (.extractI16 n) := ⟨_, by decide, rfl, hits_of_op "EXTRACT_I16" 0x25#8 _⟩
theorem extractI32 (n : Nat) : Statement (.extractI32 n) := ⟨_, by decide, rfl, hits_of_op "EXTRACT_I32" 0x26#8 _⟩
theorem extractI64 (n : Nat) : Statement (.extractI64 n) := ⟨_, by decide, rfl, hits_of_op "EXTRACT_I64" 0x27#8 _⟩
theorem extractFloat : Statement .extractFloat := ⟨⟨"EXTRACT_FLOAT", 0xFFFF, 0x3200⟩, by decide, rfl, by show OpcodeRow.hits _ (controlWord _ 0) = true; decide⟩
theorem extractDouble : Statement .extractDouble := ⟨⟨"EXTRACT_DOUBLE", 0xFFFF, 0x3300⟩, by decide, rfl, by show OpcodeRow.hits _ (controlWord _ 0) = true; decide⟩
theorem kinit (base cap : Word) (z : Bool) : Statement (.kinit base cap z) :=
  ⟨⟨"KINIT", 0xFBFF, 0x8000⟩, by decide, rfl, by cases z <;> (show OpcodeRow.hits _ (controlWord _ 0) = true; decide)⟩
theorem addU8 (value : Word) (n : Nat) : Statement (.addU8 value n) := ⟨_, by decide, rfl, hits_of_op "ADD_U8" 0xA0#8 _⟩
theorem addU16 (value : Word) (n : Nat) : Statement (.addU16 value n) := ⟨_, by decide, rfl, hits_of_op "ADD_U16" 0xA1#8 _⟩
theorem addU32 (value : Word) (n : Nat) : Statement (.addU32 value n) := ⟨_, by decide, rfl, hits_of_op "ADD_U32" 0xA2#8 _⟩
theorem addU64 (value : Word) (n : Nat) : Statement (.addU64 value n) := ⟨_, by decide, rfl, hits_of_op "ADD_U64" 0xA3#8 _⟩
theorem addI8 (value : Word) (n : Nat) : Statement (.addI8 value n) := ⟨_, by decide, rfl, hits_of_op "ADD_I8" 0xA4#8 _⟩
theorem addI16 (value : Word) (n : Nat) : Statement (.addI16 value n) := ⟨_, by decide, rfl, hits_of_op "ADD_I16" 0xA5#8 _⟩
theorem addI32 (value : Word) (n : Nat) : Statement (.addI32 value n) := ⟨_, by decide, rfl, hits_of_op "ADD_I32" 0xA6#8 _⟩
theorem addI64 (value : Word) (n : Nat) : Statement (.addI64 value n) := ⟨_, by decide, rfl, hits_of_op "ADD_I64" 0xA7#8 _⟩
theorem addFloat (pattern : Word) : Statement (.addFloat pattern) := ⟨⟨"ADD_FLOAT", 0xFFFF, 0xB200⟩, by decide, rfl, by show OpcodeRow.hits _ (controlWord _ 0) = true; decide⟩
theorem addDouble (pattern : Word) : Statement (.addDouble pattern) := ⟨⟨"ADD_DOUBLE", 0xFFFF, 0xB300⟩, by decide, rfl, by show OpcodeRow.hits _ (controlWord _ 0) = true; decide⟩

end Sys2Proof.Laws.TableRow
end

