-- ==== Sys2Proof/Laws/Step.lean ====
section
/-! SUPPORT. Everything one step can do, and that no step faults. -/

namespace Sys2Proof.Machine

/-- A step that answers a next state idled, ran a command, answered an illegal record, took a reset, or took a host write. -/
theorem step_next_cases {s t : State} (h : step s = .next t) :
    (s.inbox = [] ∧ t = s) ∨
    (∃ r rest i, s.inbox = .command r :: rest ∧ decode r = .instr i ∧ exec i { s with inbox := rest } = .next t) ∨
    (∃ r rest why, s.inbox = .command r :: rest ∧ decode r = .illegal why ∧
      t = { s with inbox := rest }.reject .einvalidArg) ∨
    (∃ rest, s.inbox = .reset :: rest ∧ t = { s with inbox := rest }.assertReset) ∨
    (∃ a v rest, s.inbox = .write a v :: rest ∧ a < s.cfg.bufBytes ∧
      t = { s with inbox := rest, buf := s.buf.write a v }) := by
  unfold step at h
  split at h
  · rename_i hi
    injection h with h
    exact .inl ⟨hi, h.symm⟩
  · rename_i r rest hi
    unfold runRecord at h
    split at h
    · rename_i i hd
      exact .inr (.inl ⟨r, rest, i, hi, hd, h⟩)
    · rename_i why hd
      injection h with h
      exact .inr (.inr (.inl ⟨r, rest, why, hi, hd, h.symm⟩))
  · rename_i rest hi
    injection h with h
    exact .inr (.inr (.inr (.inl ⟨rest, hi, h.symm⟩)))
  · rename_i a v rest hi
    obtain ⟨ha, rfl⟩ := State.hostWrite_next_cases h
    exact .inr (.inr (.inr (.inr ⟨a, v, rest, hi, ha, rfl⟩)))

/-- No command faults: there are no faults (R140). -/
theorem exec_ne_fault (i : Instr) (s : State) (f : Fault) : exec i s ≠ .fault f := by cases f

end Sys2Proof.Machine
end

