-- ==== Sys2Proof/Laws/Verdict.lean ====
section
/-! SUPPORT. Every command is its checks and then its effect: what the checks of any command say, in the terms of
`Sys2Proof/Safety.lean`. -/

namespace Sys2Proof
open Sys2Proof.Machine

/-- What the checks of a command say (R74). -/
def Instr.verdict (i : Instr) (s : State) : Verdict :=
  match i.request with
  | .init => .pass
  | .skip count => checkBounds s.cfg (i.cursorOf s) count
  | .integer signed w n => if i.isParser then checkExtract s.cfg s.p w n else checkAdd s.cfg s.k signed w n i.addend
  | .float w => checkBounds s.cfg (i.cursorOf s) w

/-- What a command does when its checks have passed. -/
def Instr.effect (i : Instr) (s : State) : Answer :=
  match i.request with
  | .init => exec i s
  | .skip count => .next ({ s with p := s.p.advance count }.respond .ok 0)
  | .integer signed w n => if i.isParser then extractWindow signed n s else insertWindow n (fieldOf w n i.addend) s
  | .float w => if i.isParser then extractWindow false w s else insertWindow w (lowBits w i.addend) s

theorem exec_eq_guarded (i : Instr) (s : State) : exec i s = guarded (Instr.verdict i s) s (Instr.effect i s) := by
  cases i <;> rfl

theorem Instr.verdict_eq_pass {i : Instr} {s : State} :
    Instr.verdict i s = .pass ↔ i.isInit = true ∨
      (i.widthLegal = true ∧ i.bits ≤ (i.cursorOf s).remaining ∧ (i.valueFits = true ∨ s.cfg.chkRange = false)) := by
  unfold Instr.verdict Instr.isInit Instr.widthLegal Instr.bits Instr.valueFits
  cases i.request with
  | init => simp
  | skip count => simp [checkBounds_eq_pass]
  | integer signed w n => cases hp : i.isParser <;> simp [checkAdd_eq_pass, checkExtract_eq_pass, Instr.cursorOf, hp]
  | float w => simp [checkBounds_eq_pass]

theorem Instr.verdict_eq_fail {i : Instr} {s : State} {st : Status} :
    Instr.verdict i s = .fail st ↔
      (i.widthLegal = false ∧ s.cfg.chkWidth = true ∧ st = .einvalidArg) ∨
      (i.isInit = false ∧ i.widthLegal = true ∧ (i.cursorOf s).remaining < i.bits ∧ s.cfg.chkBounds = true ∧
        st = .efull) ∨
      (i.widthLegal = true ∧ i.bits ≤ (i.cursorOf s).remaining ∧ i.valueFits = false ∧ s.cfg.chkRange = true ∧
        st = .einvalidArg) := by
  unfold Instr.verdict Instr.isInit Instr.widthLegal Instr.bits Instr.valueFits
  cases i.request with
  | init => simp
  | skip count => simp [checkBounds_eq_fail]
  | integer signed w n =>
    cases hp : i.isParser
    · simp [checkAdd, Verdict.andThen_eq_fail, checkWidth_eq_fail, checkBounds_eq_fail, checkRange_eq_fail,
        checkWidth_eq_pass, checkBounds_eq_pass, Instr.cursorOf, hp]
      tauto
    · simp [checkExtract, Verdict.andThen_eq_fail, checkWidth_eq_fail, checkBounds_eq_fail, checkWidth_eq_pass,
        Instr.cursorOf, hp]
  | float w => simp [checkBounds_eq_fail]

theorem Instr.verdict_eq_undefined {i : Instr} {s : State} {why : Refusal} :
    Instr.verdict i s = .undefined why ↔
      (i.widthLegal = false ∧ s.cfg.chkWidth = false ∧ why = .widthUnchecked) ∨
      (i.isInit = false ∧ i.widthLegal = true ∧ (i.cursorOf s).remaining < i.bits ∧ s.cfg.chkBounds = false ∧
        why = .boundsUnchecked) := by
  unfold Instr.verdict Instr.isInit Instr.widthLegal Instr.bits
  cases i.request with
  | init => simp
  | skip count => simp [checkBounds_eq_undefined]
  | integer signed w n =>
    cases hp : i.isParser <;>
      simp [checkAdd, checkExtract, Verdict.andThen_eq_undefined, checkWidth_eq_undefined, checkBounds_eq_undefined,
        checkRange_ne_undefined, checkWidth_eq_pass, checkBounds_eq_pass, Instr.cursorOf, hp]
  | float w => simp [checkBounds_eq_undefined]

/-- A transfer of legal width asks for one bit or more. -/
theorem Instr.one_le_bits {i : Instr} (hw : i.widthLegal = true) (ht : i.isTransfer = true) : 1 ≤ i.bits := by
  unfold Instr.widthLegal at hw
  unfold Instr.isTransfer at ht
  unfold Instr.bits
  cases hr : i.request with
  | init => simp [hr] at ht
  | skip count => simp [hr] at ht
  | integer signed w n =>
    simp [hr] at hw
    exact hw.1
  | float w => rcases Instr.float_width hr with rfl | rfl <;> decide

end Sys2Proof
end

