-- ==== Sys2Proof/Tests/Slice0.lean ====
section
/-! SUPPORT. The model's own tests: well-formedness, decoding of words written out from R53, one step of each command, and a
witness for the hypotheses of each statement. Expected values are those of spec/95_test_vectors.md, named by its
section and row, unless a comment says otherwise. -/

namespace Sys2Proof.Tests
open Sys2Proof.Machine Sys2Proof.Claims

/-! ### Well-formedness: each check with a term it refuses -/

theorem test_widest_encodable_width : Instr.wellFormed (.extractI64 255) = true := by decide
theorem test_ill_formed_extractU8 : Instr.wellFormed (.extractU8 256) = false := by decide
theorem test_ill_formed_extractU16 : Instr.wellFormed (.extractU16 256) = false := by decide
theorem test_ill_formed_extractU32 : Instr.wellFormed (.extractU32 300) = false := by decide
theorem test_ill_formed_extractU64 : Instr.wellFormed (.extractU64 256) = false := by decide
theorem test_ill_formed_extractI8 : Instr.wellFormed (.extractI8 256) = false := by decide
theorem test_ill_formed_extractI16 : Instr.wellFormed (.extractI16 256) = false := by decide
theorem test_ill_formed_extractI32 : Instr.wellFormed (.extractI32 256) = false := by decide
theorem test_ill_formed_extractI64 : Instr.wellFormed (.extractI64 256) = false := by decide
theorem test_ill_formed_addU8 : Instr.wellFormed (.addU8 0 256) = false := by decide
theorem test_ill_formed_addU16 : Instr.wellFormed (.addU16 0 300) = false := by decide
theorem test_ill_formed_addU32 : Instr.wellFormed (.addU32 0 256) = false := by decide
theorem test_ill_formed_addU64 : Instr.wellFormed (.addU64 0 256) = false := by decide
theorem test_ill_formed_addI8 : Instr.wellFormed (.addI8 0 256) = false := by decide
theorem test_ill_formed_addI16 : Instr.wellFormed (.addI16 0 256) = false := by decide
theorem test_ill_formed_addI32 : Instr.wellFormed (.addI32 0 256) = false := by decide
theorem test_ill_formed_addI64 : Instr.wellFormed (.addI64 0 512) = false := by decide
theorem test_assembler_rejects_width_256 : assemble (.addU8 0 256) = none := by decide

/-! ### Decoding: for every command a control word written out field by field, `U CLS 0 S/Z SZ N` (R51, R53) -/

theorem test_decode_pinit : decode ⟨0b0_000_0_0_00_00000000, 48, 3⟩ = .instr (.pinit 3 48) := by decide
theorem test_decode_skip : decode ⟨0b0_001_0_0_00_00000000, 0xFFFFFFFFFFFFFFFF, 0⟩ = .instr (.skip 0xFFFFFFFFFFFFFFFF) := by decide
theorem test_decode_extractU8 : decode ⟨0b0_010_0_0_00_00000101, 0, 0⟩ = .instr (.extractU8 5) := by decide
theorem test_decode_extractU16 : decode ⟨0b0_010_0_0_01_00001100, 0, 0⟩ = .instr (.extractU16 12) := by decide
theorem test_decode_extractU32 : decode ⟨0b0_010_0_0_10_00011100, 0, 0⟩ = .instr (.extractU32 28) := by decide
theorem test_decode_extractU64 : decode ⟨0b0_010_0_0_11_01000000, 0, 0⟩ = .instr (.extractU64 64) := by decide
theorem test_decode_extractI8 : decode ⟨0b0_010_0_1_00_00000011, 0, 0⟩ = .instr (.extractI8 3) := by decide
theorem test_decode_extractI16 : decode ⟨0b0_010_0_1_01_00001011, 0, 0⟩ = .instr (.extractI16 11) := by decide
theorem test_decode_extractI32 : decode ⟨0b0_010_0_1_10_00010001, 0, 0⟩ = .instr (.extractI32 17) := by decide
theorem test_decode_extractI64 : decode ⟨0b0_010_0_1_11_11111111, 0, 0⟩ = .instr (.extractI64 255) := by decide
theorem test_decode_extractFloat : decode ⟨0b0_011_0_0_10_00000000, 0, 0⟩ = .instr .extractFloat := by decide
theorem test_decode_extractDouble : decode ⟨0b0_011_0_0_11_00000000, 0, 0⟩ = .instr .extractDouble := by decide
theorem test_decode_kinit_z0 : decode ⟨0b1_000_0_0_00_00000000, 16, 1⟩ = .instr (.kinit 1 16 false) := by decide
theorem test_decode_kinit_z1 : decode ⟨0b1_000_0_1_00_00000000, 16, 1⟩ = .instr (.kinit 1 16 true) := by decide
theorem test_decode_addU8 : decode ⟨0b1_010_0_0_00_00000010, 5, 0⟩ = .instr (.addU8 5 2) := by decide
theorem test_decode_addU16 : decode ⟨0b1_010_0_0_01_00001100, 0xABC, 0⟩ = .instr (.addU16 0xABC 12) := by decide
theorem test_decode_addU32 : decode ⟨0b1_010_0_0_10_00100000, 0xDEADBEEF, 0⟩ = .instr (.addU32 0xDEADBEEF 32) := by decide
theorem test_decode_addU64 : decode ⟨0b1_010_0_0_11_00111010, 7, 0⟩ = .instr (.addU64 7 58) := by decide
theorem test_decode_addI8 : decode ⟨0b1_010_0_1_00_00000011, 0xFE, 0⟩ = .instr (.addI8 0xFE 3) := by decide
theorem test_decode_addI16 : decode ⟨0b1_010_0_1_01_00001011, 0xFED4, 0⟩ = .instr (.addI16 0xFED4 11) := by decide
theorem test_decode_addI32 : decode ⟨0b1_010_0_1_10_00100000, 0xFFFFFFFE, 0⟩ = .instr (.addI32 0xFFFFFFFE 32) := by decide
theorem test_decode_addI64 : decode ⟨0b1_010_0_1_11_00101000, 1, 0⟩ = .instr (.addI64 1 40) := by decide
theorem test_decode_addFloat : decode ⟨0b1_011_0_0_10_00000000, 0x3F800000, 0⟩ = .instr (.addFloat 0x3F800000) := by decide
theorem test_decode_addDouble : decode ⟨0b1_011_0_0_11_00000000, 7, 0⟩ = .instr (.addDouble 7) := by decide

/-! Illegal words: each reason of R55 (V11) -/

theorem test_illegal_pinit_n : decode ⟨0x0001, 0, 0⟩ = .illegal .widthSet := by decide
theorem test_illegal_pinit_sz : decode ⟨0x0100, 0, 0⟩ = .illegal .sizeSet := by decide
theorem test_illegal_pinit_z : decode ⟨0x0400, 0, 0⟩ = .illegal .flagSet := by decide
theorem test_illegal_bit11 : decode ⟨0x2808, 0, 0⟩ = .illegal .bit11Set := by decide
theorem test_illegal_skip_flag : decode ⟨0x1400, 0, 0⟩ = .illegal .flagSet := by decide
theorem test_illegal_packer_skip : decode ⟨0x9000, 0, 0⟩ = .illegal .packerSkip := by decide
theorem test_illegal_kinit_sz : decode ⟨0x8100, 0, 0⟩ = .illegal .sizeSet := by decide
theorem test_illegal_float_size : decode ⟨0x3100, 0, 0⟩ = .illegal .floatSize := by decide
theorem test_illegal_float_sign : decode ⟨0x3600, 0, 0⟩ = .illegal .flagSet := by decide
theorem test_illegal_float_n : decode ⟨0xB340, 0, 0⟩ = .illegal .widthSet := by decide
theorem test_illegal_class_4 : decode ⟨0x4000, 0, 0⟩ = .illegal .reservedClass := by decide
theorem test_illegal_class_7 : decode ⟨0xF7FF, 0, 0⟩ = .illegal .reservedClass := by decide

/-- The 18 bytes of `ADD_I16 -300, 11` (V7 row 11), in the order of R50. -/
theorem test_decode_bytes : decodeBytes [0xA5, 0x0B, 0, 0, 0, 0, 0, 0, 0xFE, 0xD4, 0, 0, 0, 0, 0, 0, 0, 0]
    = .instr (.addI16 0xFED4 11) := by decide

theorem test_decode_17_bytes : decodeBytes (List.replicate 17 0) = .illegal .notOneRecord := by decide

/-- A table word: the control word low, then `A`, then `B`. -/
theorem test_table_word : decodeTableWord 144 (0x8400 + 0x10 * 2 ^ 16 + 1 * 2 ^ 80) = some (.kinit 1 16 true) := by decide

/-- R60's text form of V7 row 3. -/
theorem test_asm : Instr.asm (.addU16 2748 12) = "ADD_U16 2748, 12" := by rfl

/-! ### The states of the test vectors -/

/-- Ten bytes from address 0 on, all checks enabled, both cursors on all of them at the positions given. -/
def ten (bytes : List Byte) (p k : Word) : State :=
  { State.launch ⟨10, true, true, true⟩
      (((List.range 10).zip bytes).filter fun c => c.2 != 0) with
    p := ⟨0, 80, p⟩, k := ⟨0, 80, k⟩ }

/-- State E with `P.POS = p`. -/
def stateE (p : Word) : State := ten [0xDE, 0xAD, 0xBE, 0xEF, 0x01, 0x23, 0x45, 0x67, 0x89, 0xAB] p 0

/-- State Z with `K.POS = k`. -/
def stateZ (k : Word) : State := ten [] 0 k

/-- One step on a record put to the command channel. -/
def run (cw : BitVec 16) (a b : Word) (s : State) : Answer := step { s with inbox := [.command ⟨cw, a, b⟩] }

/-- What a parser test looks at: the responses and `P.POS`. -/
def parsed : Answer → Option (List (Status × Nat) × Nat)
  | .next t => some (t.outbox.map fun r => (r.status, r.result.toNat), t.p.pos.toNat)
  | .fault _ => none
  | .refused _ => none

/-- What a packer test looks at: the responses, `K.POS` and the bytes at 0 to 9. -/
def packed : Answer → Option (List Status × Nat × List Byte)
  | .next t => some (t.outbox.map Response.status, t.k.pos.toNat, (List.range 10).map t.buf.read)
  | .fault _ => none
  | .refused _ => none

/-- Which refusal an answer is. -/
def refusal : Answer → Option Refusal
  | .next _ => none
  | .fault _ => none
  | .refused why => some why

/-! ### Parser commands -/

/-- V10 row 7. -/
theorem test_pinit : (match run 0x0000 48 3 (stateE 37) with
    | .next t => (t.p, t.k, t.outbox) | _ => (Cursor.zero, Cursor.zero, []))
    = (⟨3, 48, 0⟩, ⟨0, 80, 0⟩, [⟨.ok, 0⟩]) := by decide

/-- V1 row 4. -/
theorem test_skip : parsed (run 0x1000 3 0 (stateE 77)) = some ([(.ok, 0)], 80) := by decide

/-- V1 row 8: the count is compared exactly, nothing wraps. -/
theorem test_skip_huge : parsed (run 0x1000 0xFFFFFFFFFFFFFFFF 0 (stateE 5)) = some ([(.efull, 0)], 5) := by decide

/-- V5 row 3. -/
theorem test_extractU8 : parsed (run 0x2008 0 0 (stateE 6)) = some ([(.ok, 0xAB)], 14) := by decide

/-- V2 row 9: width before bounds. -/
theorem test_extractU8_width_first : parsed (run 0x2009 0 0 (stateE 80)) = some ([(.einvalidArg, 0)], 80) := by decide

/-- V5 row 6. -/
theorem test_extractU16 : parsed (run 0x2110 0 0 (stateE 15)) = some ([(.ok, 0xDF77)], 31) := by decide

/-- V5 row 10. -/
theorem test_extractU32 : parsed (run 0x2220 0 0 (stateE 7)) = some ([(.ok, 0x56DF7780)], 39) := by decide

/-- V5 row 14. -/
theorem test_extractU64 : parsed (run 0x233A 0 0 (stateE 7)) = some ([(.ok, 0x015B7DDE02468ACF)], 65) := by decide

/-- V1 row 13. -/
theorem test_extractU64_efull : parsed (run 0x2340 0 0 (stateE 17)) = some ([(.efull, 0)], 17) := by decide

/-- V6 row 3. -/
theorem test_extractI8 : parsed (run 0x2403 0 0 (stateE 0)) = some ([(.ok, 0xFFFFFFFFFFFFFFFE)], 3) := by decide

/-- V6 row 6. -/
theorem test_extractI16 : parsed (run 0x250B 0 0 (stateE 3)) = some ([(.ok, 0xFFFFFFFFFFFFFFAB)], 14) := by decide

/-- V6 row 9. -/
theorem test_extractI32 : parsed (run 0x2620 0 0 (stateE 8)) = some ([(.ok, 0xFFFFFFFFADBEEF01)], 40) := by decide

/-- V6 row 12. -/
theorem test_extractI64 : parsed (run 0x2740 0 0 (stateE 9)) = some ([(.ok, 0x5B7DDE02468ACF13)], 73) := by decide

/-- V8 row 12. -/
theorem test_extractFloat : parsed (run 0x3200 0 0 (stateE 0)) = some ([(.ok, 0xDEADBEEF)], 32) := by decide

/-- V8 row 11. -/
theorem test_extractDouble : parsed (run 0x3300 0 0 (stateE 0)) = some ([(.ok, 0xDEADBEEF01234567)], 64) := by decide

/-- V5 row 16: a view with `BASE = 3`. -/
theorem test_extract_base : parsed (run 0x2008 0 0
    { ten [0xFF, 0xFF, 0xFF, 0xDE, 0xAD, 0xBE, 0xEF, 0x01, 0x23, 0] 0 0 with p := ⟨3, 48, 3⟩ })
    = some ([(.ok, 0xF5)], 11) := by decide

/-! ### Packer commands -/

/-- V10 row 3: whole bytes are cleared, and only those of the view. -/
theorem test_kinit_zero_fill : packed (run 0x8400 11 1 (ten [0xFF, 0xFF, 0xFF, 0xFF] 0 37))
    = some ([.ok], 0, [0xFF, 0, 0, 0xFF, 0, 0, 0, 0, 0, 0]) := by decide

/-- V10 row 2. -/
theorem test_kinit_no_fill : packed (run 0x8000 16 0 (ten [0xFF, 0xFF, 0xFF, 0xFF] 0 37))
    = some ([.ok], 0, [0xFF, 0xFF, 0xFF, 0xFF, 0, 0, 0, 0, 0, 0]) := by decide

/-- V7 row 2. -/
theorem test_addU8 : packed (run 0xA008 0xFF 0 (stateZ 7)) = some ([.ok], 15, [0x01, 0xFE, 0, 0, 0, 0, 0, 0, 0, 0]) := by decide

/-- V3 row 3, S4. -/
theorem test_addU8_range : packed (run 0xA002 5 0 (stateZ 0)) = some ([.einvalidArg], 0, List.replicate 10 0) := by decide

/-- V7 row 4. -/
theorem test_addU16 : packed (run 0xA109 0x1FF 0 (stateZ 6)) = some ([.ok], 15, [0x03, 0xFE, 0, 0, 0, 0, 0, 0, 0, 0]) := by decide

/-- V7 row 5. -/
theorem test_addU32 : packed (run 0xA21C 0xABCDEF1 0 (stateZ 5))
    = some ([.ok], 33, [0x05, 0x5E, 0x6F, 0x78, 0x80, 0, 0, 0, 0, 0]) := by decide +kernel

/-- V7 row 8. -/
theorem test_addU64 : packed (run 0xA33A 0x03FFFFFFFFFFFFFF 0 (stateZ 7))
    = some ([.ok], 65, [0x01, 0xFF, 0xFF, 0xFF, 0xFF, 0xFF, 0xFF, 0xFF, 0x80, 0]) := by decide +kernel

/-- V7 row 9. -/
theorem test_addI8 : packed (run 0xA403 0xFE 0 (stateZ 0)) = some ([.ok], 3, [0xC0, 0, 0, 0, 0, 0, 0, 0, 0, 0]) := by decide

/-- V3 row 9: a 1-bit signed field holds -1 and 0. -/
theorem test_addI8_range : packed (run 0xA401 1 0 (stateZ 0)) = some ([.einvalidArg], 0, List.replicate 10 0) := by decide

/-- V7 row 11. -/
theorem test_addI16 : packed (run 0xA50B 0xFED4 0 (stateZ 3)) = some ([.ok], 14, [0x1B, 0x50, 0, 0, 0, 0, 0, 0, 0, 0]) := by decide

/-- V7 row 14: the least 17-bit number. -/
theorem test_addI32 : packed (run 0xA611 0xFFFF0000 0 (stateZ 3)) = some ([.ok], 20, [0x10, 0, 0, 0, 0, 0, 0, 0, 0, 0]) := by decide

/-- V7 row 15. -/
theorem test_addI64 : packed (run 0xA728 0xFFFFFF8000000000 0 (stateZ 1))
    = some ([.ok], 41, [0x40, 0, 0, 0, 0, 0, 0, 0, 0, 0]) := by decide

/-- V8 row 10: `A[63:32]` is ignored. -/
theorem test_addFloat : packed (run 0xB200 0xFFFFFFFF3F800000 0 (stateZ 0))
    = some ([.ok], 32, [0x3F, 0x80, 0, 0, 0, 0, 0, 0, 0, 0]) := by decide

/-- V8 row 5. -/
theorem test_addDouble : packed (run 0xB300 0x400C000000000000 0 (stateZ 3))
    = some ([.ok], 67, [0x08, 0x01, 0x80, 0, 0, 0, 0, 0, 0, 0]) := by decide

/-- V7 row 17: a non-zero destination is OR-ed. -/
theorem test_add_ors : packed (run 0xA004 5 0 (ten [0xAF] 0 4)) = some ([.ok], 8, [0xAF, 0, 0, 0, 0, 0, 0, 0, 0, 0]) := by decide

/-! ### Illegal records, disabled checks, bytes outside `BUF`, reset, the host's writes -/

/-- V4 row 9: illegal before any other check. -/
theorem test_illegal_record : packed (run 0xB201 1 0 (stateZ 80)) = some ([.einvalidArg], 80, List.replicate 10 0) := by decide

/-- V13: `CHK_WIDTH = 0`, U1. -/
theorem test_width_unchecked : refusal (run 0x2009 0 0 { stateE 0 with cfg := ⟨10, true, false, true⟩ })
    = some .widthUnchecked := by decide

/-- V13: `CHK_BOUNDS = 0`, U2. -/
theorem test_bounds_unchecked : refusal (run 0x1000 4 0 { stateE 77 with cfg := ⟨10, false, true, true⟩ })
    = some .boundsUnchecked := by decide

/-- V13: `CHK_RANGE = 0` truncates. -/
theorem test_range_unchecked : packed (run 0xA002 5 0 { stateZ 0 with cfg := ⟨10, true, true, false⟩ })
    = some ([.ok], 2, [0x40, 0, 0, 0, 0, 0, 0, 0, 0, 0]) := by decide

/-- R39, U4: the view passes the end of `BUF` and the field lies there. -/
theorem test_outside_buf : refusal (run 0x2008 0 0 { stateE 0 with p := ⟨9, 80, 1⟩ }) = some .outsideBuf := by decide

theorem test_kinit_outside_buf : refusal (run 0x8400 16 9 (stateZ 0)) = some .outsideBuf := by decide

/-- R161: reset zeroes the registers and keeps `BUF`. -/
theorem test_reset_keeps_buf : (match step { stateE 37 with inbox := [.reset] } with
    | .next t => (t.p, t.k, t.buf.read 0, t.outbox) | _ => (⟨1, 1, 1⟩, ⟨1, 1, 1⟩, 0, []))
    = (⟨0, 0, 0⟩, ⟨0, 0, 0⟩, 0xDE, []) := by decide

/-- V12: the first command after reset, put where the step takes it. -/
theorem test_first_command_after_reset : parsed (step (State.reset.withFetchWord 144 0x2001)) = some ([(.efull, 0)], 0) := by decide

/-! ### Witnesses: a state and operands that meet the hypotheses of each statement -/

theorem witness_DecodeEncodeAgree : Instr.wellFormed (.addI64 0x8000000000000000 255) = true := by decide

theorem witness_EncodeDecodeGivesTheRecordBack :
    decode ⟨0xA008, 0xFFFF, 7⟩ = .instr (.addU8 0xFFFF 8) ∧ decode ⟨0x8400, 16, 1⟩ = .instr (.kinit 1 16 true) ∧
    decode ⟨0x2001, 5, 6⟩ = .instr (.extractU8 1) := by decide

theorem witness_LegalWordsAreTheOpcodeTable :
    decode ⟨0xA2FF, 0, 0⟩ = .instr (.addU32 0 255) ∧ (⟨"ADD_U32", 0xFF00, 0xA200⟩ : OpcodeRow) ∈ opcodeTable ∧
    OpcodeRow.hits ⟨"ADD_U32", 0xFF00, 0xA200⟩ 0xA2FF = true := by decide

theorem witness_RecordsSurviveBitsAndBytes :
    ([] : List Byte).length ≠ 18 ∧ (List.replicate 17 (0 : Byte)).length ≠ 18 ∧
    (List.replicate 19 (0 : Byte)).length ≠ 18 := by decide

/-- `A` differs in the bits `ADD_U8` ignores, `B` differs. -/
theorem witness_UnusedOperandsHaveNoEffect :
    decode ⟨0xA008, 0x05, 7⟩ = .instr (.addU8 0x05 8) ∧
    (0xFF05 : Word).toNat % 2 ^ Instr.aBits (.addU8 0x05 8) = (0x05 : Word).toNat % 2 ^ Instr.aBits (.addU8 0x05 8) ∧
    Instr.isInit (.addU8 0x05 8) = false ∧ Instr.aBits (.extractU8 8) = 0 := by decide

theorem witness_AssemblerEmitsWhatDecodes :
    assemble (.extractU8 255) = some ⟨0x20FF, 0, 0⟩ ∧ assemble (.extractU8 256) = none ∧
    (64 ∈ [8, 16, 32, 64]) ∧ -(2 ^ (64 - 1) : Int) ≤ -(2 ^ 63) ∧ (-(2 ^ 63) : Int) ≤ 2 ^ (64 - 1) - 1 := by decide

theorem witness_StepRunsTheDecodedCommand :
    ({ stateE 0 with inbox := [.command ⟨0x2008, 0, 0⟩] } : State).inbox = .command ⟨0x2008, 0, 0⟩ :: [] ∧
    decode ⟨0x2008, 0, 0⟩ = .instr (.extractU8 8) ∧ decodeBytes (Record.toBytes ⟨0x2008, 0, 0⟩) = .instr (.extractU8 8) ∧
    decodeTableWord 144 0x2008 = some (.extractU8 8) ∧ decodeTableWord 16 0x3200 = some .extractFloat := by decide

theorem witness_IllegalCommandIsAnsweredEinvalid :
    ({ stateE 0 with inbox := [.command ⟨0x9000, 0, 0⟩] } : State).inbox = .command ⟨0x9000, 0, 0⟩ :: [] ∧
    decode ⟨0x9000, 0, 0⟩ = .illegal .packerSkip ∧ (0xA7#8 &&& 0x78#8) = 0x20#8 ∧
    decode ⟨controlWord 0xA7#8 65, 0, 0⟩ = .instr (.addI64 0 65) ∧ Instr.widthLegal (.addI64 0 65) = false ∧
    (stateZ 0).cfg.chkWidth = true := by decide

theorem witness_IdleStepChangesNothing : (stateE 0).inbox = [] := by decide

theorem witness_ResetZeroesTheCursorsOnly :
    ({ stateE 37 with inbox := [.reset] } : State).inbox = .reset :: [] := by decide

theorem witness_HostWritesAreRead :
    ({ stateE 0 with inbox := [.write 9 7] } : State).inbox = .write 9 7 :: [] ∧ 9 < (stateE 0).cfg.bufBytes ∧
    ({ stateE 0 with inbox := [.write 10 7] } : State).inbox = .write 10 7 :: [] ∧ (stateE 0).cfg.bufBytes ≤ 10 := by decide

theorem witness_CommandsOnTheResetState :
    State.reset.p = ⟨0, 0, 0⟩ ∧ State.reset.k = ⟨0, 0, 0⟩ ∧ State.reset.cfg.chkWidth = true ∧
    State.reset.cfg.chkBounds = true ∧ State.reset.cfg.chkRange = true ∧
    Instr.isTransfer .extractFloat = true ∧ Instr.widthLegal .extractFloat = true ∧
    Instr.isTransfer (.addU8 0 1) = true ∧ Instr.widthLegal (.addU8 0 1) = true ∧
    Instr.isTransfer (.extractU8 0) = true ∧ Instr.widthLegal (.extractU8 0) = false ∧ 1 ≤ (1 : Word).toNat := by decide

/-- Both sides of the bound, at the bound. -/
theorem witness_SkipAdvancesOrAnswersEfull :
    (80 : Word).toNat ≤ (stateE 0).p.cap.toNat - (stateE 0).p.pos.toNat ∧
    (stateE 0).p.cap.toNat - (stateE 0).p.pos.toNat < (81 : Word).toNat ∧ (stateE 0).cfg.chkBounds = true := by decide

/-- The widest field of each type, and one bit at the end of the view. -/
theorem witness_UnsignedExtractsReadTheWindow :
    (8, Instr.extractU8) ∈ unsignedExtracts ∧ canTransfer (stateE 72).cfg (stateE 72).p 8 8 ∧
    (64, Instr.extractU64) ∈ unsignedExtracts ∧ canTransfer (stateE 16).cfg (stateE 16).p 64 64 ∧
    canTransfer (stateE 79).cfg (stateE 79).p 64 1 :=
  ⟨.head _, by decide, .tail _ (.tail _ (.tail _ (.head _))), by decide, by decide⟩

theorem witness_SignedExtractsSignExtend :
    (8, Instr.extractI8) ∈ signedExtracts ∧ canTransfer (stateE 79).cfg (stateE 79).p 8 1 ∧
    (64, Instr.extractI64) ∈ signedExtracts ∧ canTransfer (stateE 9).cfg (stateE 9).p 64 64 :=
  ⟨.head _, by decide, .tail _ (.tail _ (.tail _ (.head _))), by decide⟩

theorem witness_FloatExtractsMoveThePattern :
    (32, Instr.extractFloat) ∈ floatExtracts ∧ canTransfer (stateE 48).cfg (stateE 48).p 32 32 ∧
    (64, Instr.extractDouble) ∈ floatExtracts ∧ canTransfer (stateE 16).cfg (stateE 16).p 64 64 :=
  ⟨.head _, by decide, .tail _ (.head _), by decide⟩

/-- An illegal width with nothing left, a legal one with one bit too few, a float with one bit too few. -/
theorem witness_ExtractsFailInOrder :
    (8, Instr.extractU8) ∈ unsignedExtracts ++ signedExtracts ∧ ¬(1 ≤ 9 ∧ 9 ≤ 8) ∧ (stateE 80).cfg.chkWidth = true ∧
    (1 ≤ 8 ∧ 8 ≤ 8) ∧ (stateE 73).p.cap.toNat - (stateE 73).p.pos.toNat < 8 ∧ (stateE 73).cfg.chkBounds = true ∧
    (32, Instr.extractFloat) ∈ floatExtracts ∧ (stateE 49).p.cap.toNat - (stateE 49).p.pos.toNat < 32 :=
  ⟨.head _, by decide, by decide, by decide, by decide, by decide, .head _, by decide⟩

/-- Two memories that differ outside the footprint of the first eight bits. -/
theorem witness_WindowIsTheBitsOfTheStream :
    ∀ a, inFootprint 0 0 8 a → Memory.read [(0, 0xDE), (1, 0xFF)] a = Memory.read [(0, 0xDE)] a := by
  intro a h
  obtain rfl : a = 0 := by unfold inFootprint at h; omega
  decide

/-- V5 row 6: 16 bits at 15 in 16-bit words, by both word starts; and lanes that are those of the view. -/
theorem witness_ExtractionDatapathIsTheWindow :
    16 ∈ [8, 16, 32, 64] ∧ 1 ≤ 16 ∧ 8 * 1 ≤ 15 ∧ 15 < 8 * 1 + 16 ∧ 8 * 0 ≤ 15 ∧ 15 < 8 * 0 + 16 ∧
    ∀ i, i < 16 → laneBit ((stateE 0).buf.viewByte 0) (15 + i) = (stateE 0).buf.viewBit 0 (15 + i) :=
  ⟨by decide, by decide, by decide, by decide, by decide, by decide, fun _ _ => rfl⟩

/-- `BUF` changed at a byte that eight bits at position 0 do not touch; a command that reads none needs nothing. -/
theorem witness_ParserReadsOnlyTheFootprint :
    Instr.isParser (.extractU8 8) = true ∧ Instr.isExtract (.extractU8 8) = true ∧
    (∀ a, inFootprint (stateE 0).p.base.toNat (stateE 0).p.pos.toNat (Instr.bits (.extractU8 8)) a →
      ((stateE 0).buf.write 1 0).read a = (stateE 0).buf.read a) ∧
    Instr.isParser (.skip 3) = true ∧ Instr.isExtract (.skip 3) = false := by
  refine ⟨by decide, by decide, fun a h => ?_, by decide, by decide⟩
  obtain rfl : a = 0 := by
    have h2 := h.2
    rw [show (stateE 0).p.base.toNat + ((stateE 0).p.pos.toNat + Instr.bits (.extractU8 8) - 1) / 8 = 0 by decide] at h2
    omega
  decide

theorem witness_ParserNeverWritesBuf :
    Instr.isParser (.extractU8 8) = true ∧ Answered (exec (.extractU8 8) (stateE 0)) := ⟨by decide, _, rfl⟩

/-- The last byte of `BUF` cleared, an empty view whose base is above `BUF_BYTES` (log 17), and one byte too many. -/
theorem witness_KinitBindsAndZeroFills :
    (9 : Word).toNat + ((8 : Word).toNat + 7) / 8 ≤ (stateZ 0).cfg.bufBytes ∧
    ((0 : Word) = 0 ∨ (11 : Word).toNat + ((0 : Word).toNat + 7) / 8 ≤ (stateZ 0).cfg.bufBytes) ∧
    (stateZ 0).cfg.bufBytes < (11 : Word).toNat ∧ Answered (exec (.kinit 11 0 true) (stateZ 0)) ∧
    (9 : Word) ≠ 0 ∧ (stateZ 0).cfg.bufBytes < (9 : Word).toNat + ((9 : Word).toNat + 7) / 8 :=
  ⟨by decide, by decide, by decide, ⟨_, rfl⟩, by decide, by decide⟩

/-- The greatest value that fits, a value that does not with the range check off, and the widest field. -/
theorem witness_UnsignedAddsOrTheField :
    (8, Instr.addU8) ∈ unsignedAdds ∧ canTransfer (stateZ 78).cfg (stateZ 78).k 8 2 ∧ unsignedInRange 8 2 3 ∧
    ¬unsignedInRange 8 2 4 ∧ ({ stateZ 78 with cfg := ⟨10, true, true, false⟩ } : State).cfg.chkRange = false ∧
    (64, Instr.addU64) ∈ unsignedAdds ∧ canTransfer (stateZ 16).cfg (stateZ 16).k 64 64 ∧
    unsignedInRange 64 64 0xFFFFFFFFFFFFFFFF :=
  ⟨.head _, by decide, by decide, by decide, by decide, .tail _ (.tail _ (.tail _ (.head _))), by decide, by decide⟩

/-- Both ends of the 2-bit range, a value below it with the range check off, and the widest field. -/
theorem witness_SignedAddsOrTheField :
    (8, Instr.addI8) ∈ signedAdds ∧ canTransfer (stateZ 78).cfg (stateZ 78).k 8 2 ∧ signedInRange 8 2 0xFE ∧
    signedInRange 8 2 1 ∧ ¬signedInRange 8 2 0xFD ∧
    ({ stateZ 78 with cfg := ⟨10, true, true, false⟩ } : State).cfg.chkRange = false ∧
    (64, Instr.addI64) ∈ signedAdds ∧ canTransfer (stateZ 16).cfg (stateZ 16).k 64 64 ∧
    signedInRange 64 64 0x8000000000000000 :=
  ⟨.head _, by decide, by decide, by decide, by decide, by decide, .tail _ (.tail _ (.tail _ (.head _))), by decide,
    by decide⟩

theorem witness_FloatAddsOrThePattern :
    (32, Instr.addFloat) ∈ floatAdds ∧ canTransfer (stateZ 48).cfg (stateZ 48).k 32 32 ∧
    (64, Instr.addDouble) ∈ floatAdds ∧ canTransfer (stateZ 16).cfg (stateZ 16).k 64 64 :=
  ⟨.head _, by decide, .tail _ (.head _), by decide⟩

/-- V4: each failure at its bound. -/
theorem witness_AddsFailInOrder :
    (8, Instr.addU8) ∈ unsignedAdds ++ signedAdds ∧ ¬(1 ≤ 9 ∧ 9 ≤ 8) ∧ (stateZ 80).cfg.chkWidth = true ∧
    (1 ≤ 2 ∧ 2 ≤ 8) ∧ (stateZ 79).k.cap.toNat - (stateZ 79).k.pos.toNat < 2 ∧ (stateZ 79).cfg.chkBounds = true ∧
    (8, Instr.addU8) ∈ unsignedAdds ∧ (8, Instr.addI8) ∈ signedAdds ∧
    2 ≤ (stateZ 78).k.cap.toNat - (stateZ 78).k.pos.toNat ∧ ¬unsignedInRange 8 2 4 ∧ ¬signedInRange 8 2 2 ∧
    (stateZ 78).cfg.chkRange = true ∧ (32, Instr.addFloat) ∈ floatAdds ∧
    (stateZ 49).k.cap.toNat - (stateZ 49).k.pos.toNat < 32 :=
  ⟨.head _, by decide, by decide, by decide, by decide, by decide, .head _, .head _, by decide, by decide, by decide,
    by decide, .head _, by decide⟩

theorem witness_RangeCheckIsTheBitTest :
    8 ∈ [8, 16, 32, 64] ∧ 1 ≤ 1 ∧ 1 ≤ 8 ∧ 64 ∈ [8, 16, 32, 64] ∧ 1 ≤ 64 ∧ 64 ≤ 64 := by decide

theorem witness_InsertOrsIntoTheWindow :
    0 < 1 ∧ ¬(7 ≤ 6 ∧ 6 < 7 + 1) ∧ ¬(7 ≤ 8 ∧ 8 < 7 + 1) ∧ (2 : Nat) < 3 ∧ ¬inFootprint 3 7 1 4 ∧
    (Memory.read [(3, 1)] 3).getLsbD 0 = true := by decide

theorem witness_InsertionDatapathIsTheInsert :
    (stateE 0).buf.wf ∧ 1 ≤ 64 ∧ 64 ≤ 64 ∧ 0xFFFFFFFFFFFFFFFF < 2 ^ 64 ∧ 1 ≤ 1 ∧ 1 < 2 ^ 1 := by decide

theorem witness_ChunkSpliceOrsTheChunk :
    1 ≤ 8 ∧ 8 ≤ 8 ∧ 0xFF < 2 ^ 8 ∧ 0 < 8 ∧ ¬(7 ≤ 15 ∧ 15 < 7 + 8) ∧ (2 : Nat) < 3 := by decide

theorem witness_InsertTwiceIsInsertOnce : (stateE 0).buf.wf := by decide

/-- A zero window, and the least number of a 3-bit field. -/
theorem witness_WindowAfterInsertIsOldOrNew :
    4 < 2 ^ 3 ∧ (stateZ 0).buf.window 0 7 3 = 0 ∧ 1 ≤ 3 ∧ -(2 ^ (3 - 1) : Int) ≤ -4 ∧ (-4 : Int) ≤ 2 ^ (3 - 1) - 1 ∧
    ((4 : Nat) : Int) = -4 % 2 ^ 3 := by decide

theorem witness_AddThenExtractReturnsTheValue :
    (true, 16, Instr.addI16, Instr.extractI16) ∈ integerPairs ∧
    canTransfer ({ stateZ 3 with p := ⟨0, 80, 3⟩ } : State).cfg ({ stateZ 3 with p := ⟨0, 80, 3⟩ } : State).k 16 11 ∧
    canTransfer ({ stateZ 3 with p := ⟨0, 80, 3⟩ } : State).cfg ({ stateZ 3 with p := ⟨0, 80, 3⟩ } : State).p 16 11 ∧
    ({ stateZ 3 with p := ⟨0, 80, 3⟩ } : State).p.pos = ({ stateZ 3 with p := ⟨0, 80, 3⟩ } : State).k.pos ∧
    ({ stateZ 3 with p := ⟨0, 80, 3⟩ } : State).buf.window 0 3 11 = 0 ∧ signedInRange 16 11 0xFED4 ∧
    (32, Instr.addFloat, Instr.extractFloat) ∈ floatPairs ∧ canTransfer (stateZ 0).cfg (stateZ 0).k 32 32 ∧
    canTransfer (stateZ 0).cfg (stateZ 0).p 32 32 ∧ (stateZ 0).p.base = (stateZ 0).k.base ∧
    (stateZ 0).p.pos = (stateZ 0).k.pos ∧ (stateZ 0).buf.window 0 0 32 = 0 :=
  ⟨.tail _ (.tail _ (.tail _ (.tail _ (.tail _ (.head _))))), by decide, by decide, by decide, by decide, by decide,
    .head _, by decide, by decide, by decide, by decide, by decide⟩

theorem witness_InvariantHoldsAtReset :
    Config.wf ⟨10, true, true, true⟩ ∧ (stateE 0).buf.wf ∧ (stateE 0).buf.within 10 := by decide

theorem test_reset_inv : State.reset.Inv := by decide

/-- One state for each thing a step can be. -/
theorem witness_EveryStepKeepsTheInvariant :
    (stateE 0).Inv ∧ Answered (step (stateE 0)) ∧
    Answered (step { stateE 0 with inbox := [.command ⟨0xA008, 0xFF, 0⟩] }) ∧
    Answered (step { stateE 0 with inbox := [.command ⟨0xFFFF, 0, 0⟩] }) ∧
    Answered (step { stateE 0 with inbox := [.reset] }) ∧ Answered (step { stateE 0 with inbox := [.write 9 0] }) :=
  ⟨by decide, ⟨_, rfl⟩, ⟨_, rfl⟩, ⟨_, rfl⟩, ⟨_, rfl⟩, ⟨_, rfl⟩⟩

theorem witness_PositionNeverPassesCapacity :
    (stateE 80).p.pos.toNat ≤ (stateE 80).p.cap.toNat ∧ (stateE 80).k.pos.toNat ≤ (stateE 80).k.cap.toNat ∧
    Answered (step (stateE 80)) ∧ Instr.isInit (.skip 1) = false ∧
    (Instr.cursorOf (.skip 1) (stateE 80)).cap.toNat - (Instr.cursorOf (.skip 1) (stateE 80)).pos.toNat <
      Instr.bits (.skip 1) ∧ Answered (exec (.skip 1) (stateE 80)) :=
  ⟨by decide, by decide, ⟨_, rfl⟩, by decide, by decide, _, rfl⟩

theorem witness_CursorsAreIndependent :
    Instr.isParser (.skip 1) = true ∧ Instr.isParser (.addU8 1 1) = false := by decide

theorem witness_OnlyInitWritesCapacityAndBase :
    Answered (exec (.pinit 3 48) (stateE 0)) ∧ Answered (exec (.kinit 1 16 true) (stateE 0)) ∧
    Answered (exec (.addU8 1 1) (stateE 0)) := ⟨⟨_, rfl⟩, ⟨_, rfl⟩, _, rfl⟩

/-- An INIT, a command answered `OK` and one that is not, one of each cursor. -/
theorem witness_PositionMovesByTheFieldSize :
    Instr.isInit (.pinit 0 8) = true ∧ Answered (exec (.pinit 0 8) (stateE 5)) ∧ Instr.isInit (.skip 75) = false ∧
    exec (.skip 75) (stateE 5) = .next { stateE 80 with outbox := (stateE 5).outbox ++ [⟨.ok, 0⟩] } ∧
    exec (.skip 76) (stateE 5) = .next ((stateE 5).failed .efull) ∧ Status.efull ≠ .ok ∧
    Instr.isParser (.skip 75) = true ∧ Instr.isParser (.addU8 1 1) = false ∧ Answered (exec (.addU8 1 1) (stateE 5)) :=
  ⟨by decide, ⟨_, rfl⟩, by decide, rfl, rfl, by decide, by decide, by decide, _, rfl⟩

theorem witness_FailuresChangeNothing :
    exec (.skip 76) (stateE 5) = .next ((stateE 5).failed .efull) ∧ Status.efull ≠ .ok ∧
    exec (.addU8 5 2) (stateE 5) = .next ((stateE 5).failed .einvalidArg) ∧ Status.einvalidArg ≠ .ok :=
  ⟨rfl, by decide, rfl, by decide⟩

theorem witness_OneResponsePerCommand :
    ({ stateE 0 with inbox := [.command ⟨0x2008, 0, 0⟩, .reset] } : State).inbox = .command ⟨0x2008, 0, 0⟩ :: [.reset] ∧
    Answered (step { stateE 0 with inbox := [.command ⟨0x2008, 0, 0⟩, .reset] }) := ⟨by decide, _, rfl⟩

theorem witness_ResultIsZeroUnlessExtracted :
    exec (.extractU8 8) (stateE 0) = .next { stateE 8 with outbox := (stateE 0).outbox ++ [⟨.ok, 0xDE⟩] } ∧
    (Response.mk .ok 0xDE).result ≠ 0 := ⟨rfl, by decide⟩

/-- One state for each of the three refusals. -/
theorem witness_UndefinedCommandsAreRefused :
    (⟨10, true, false, true⟩ : Config).chkWidth = false ∧ Instr.widthLegal (.extractU8 9) = false ∧
    (⟨10, false, true, true⟩ : Config).chkBounds = false ∧ Instr.isInit (.skip 4) = false ∧
    Instr.widthLegal (.skip 4) = true ∧ (stateE 77).p.cap.toNat - (stateE 77).p.pos.toNat < Instr.bits (.skip 4) ∧
    Instr.isTransfer (.extractU8 8) = true ∧ Instr.widthLegal (.extractU8 8) = true ∧
    Instr.valueFits (.extractU8 8) = true ∧
    Instr.bits (.extractU8 8) ≤ (Cursor.mk 9 80 1).cap.toNat - (Cursor.mk 9 80 1).pos.toNat ∧
    ¬(Cursor.mk 9 80 1).reaches 10 (Instr.bits (.extractU8 8)) := by decide

theorem witness_OnlyUndefinedCommandsAreRefused :
    exec (.extractU8 9) { stateE 0 with cfg := ⟨10, true, false, true⟩ } = .refused .widthUnchecked ∧
    exec (.skip 4) { stateE 77 with cfg := ⟨10, false, true, true⟩ } = .refused .boundsUnchecked ∧
    exec (.extractU8 8) { stateE 0 with p := ⟨9, 80, 1⟩ } = .refused .outsideBuf ∧
    exec (.kinit 9 16 true) (stateE 0) = .refused .outsideBuf := ⟨rfl, rfl, rfl, rfl⟩

/-- A state that keeps its duties, with a KINIT whose new view is contained up to the last byte. -/
theorem witness_ContainedViewsAreAlwaysAnswered :
    (stateE 0).guardedViews ∧ ∀ base cap, Instr.kinit 2 64 true = .kinit base cap true →
      base.toNat + (cap.toNat + 7) / 8 ≤ (stateE 0).cfg.bufBytes := by
  refine ⟨by decide, fun base cap h => ?_⟩
  injection h with h1 h2
  subst h1 h2
  decide

/-- A host write, an ADD and a zero-fill that each change a byte. -/
theorem witness_BytesChangeOnlyByTheseWrites :
    (∃ t, step { stateE 0 with inbox := [.write 9 7] } = .next t ∧ t.buf.read 9 ≠ (stateE 0).buf.read 9) ∧
    (∃ t, step { stateZ 0 with inbox := [.command ⟨0xA008, 0xFF, 0⟩] } = .next t ∧
      t.buf.read 0 ≠ (stateZ 0).buf.read 0) ∧
    ∃ t, step { stateE 0 with inbox := [.command ⟨0x8400, 8, 9⟩] } = .next t ∧ t.buf.read 9 ≠ (stateE 0).buf.read 9 :=
  ⟨⟨_, rfl, by decide⟩, ⟨_, rfl, by decide⟩, _, rfl, by decide⟩

theorem witness_ReadyOrExhausted :
    (stateE 80).Inv ∧ (stateE 80).cfg.chkBounds = true ∧ Instr.isInit (.extractU8 1) = false ∧
    Instr.widthLegal (.extractU8 1) = true ∧ 1 ≤ Instr.bits (.extractU8 1) ∧
    (Instr.cursorOf (.extractU8 1) (stateE 80)).exhausted := by decide

theorem witness_ParametersNeverChange : Answered (step { stateE 0 with inbox := [.reset] }) := ⟨_, rfl⟩

/-- Two commands answered `OK`, one not, one of the packer. -/
theorem witness_PositionIsTheSumOfAcceptedWidths :
    (∀ i ∈ [Instr.extractU8 8, .skip 3, .extractU8 9, .addU8 1 1], ∀ base cap, i ≠ .pinit base cap) ∧
    Answered (execAll [.extractU8 8, .skip 3, .extractU8 9, .addU8 1 1] (stateE 0)) := by
  refine ⟨fun i hi base cap => ?_, _, rfl⟩
  simp only [List.mem_cons, List.not_mem_nil, or_false] at hi
  rcases hi with rfl | rfl | rfl | rfl <;> exact fun h => by cases h

/-- S2 on state E: 77 bits accepted, then 4 asked for. -/
theorem witness_FirstCrossingCommandAnswersEfull :
    (stateE 0).cfg.chkBounds = true ∧
    (∀ j ∈ [Instr.skip 13, .extractU64 64] ++ [Instr.extractU8 4], j.isParser = Instr.isParser (.extractU8 4) ∧
      j.isInit = false ∧ j.widthLegal = true ∧ j.valueFits = true) ∧
    (Instr.cursorOf (.extractU8 4) (stateE 0)).contained (stateE 0).cfg.bufBytes ∧
    ([Instr.skip 13, .extractU64 64].map Instr.bits).sum ≤
      (Instr.cursorOf (.extractU8 4) (stateE 0)).cap.toNat - (Instr.cursorOf (.extractU8 4) (stateE 0)).pos.toNat ∧
    (Instr.cursorOf (.extractU8 4) (stateE 0)).cap.toNat - (Instr.cursorOf (.extractU8 4) (stateE 0)).pos.toNat <
      ([Instr.skip 13, .extractU64 64].map Instr.bits).sum + Instr.bits (.extractU8 4) := by decide

end Sys2Proof.Tests
end

/-! PROOFS. The cursor registers: what the commands do on the reset state (R21, R22), that the two cursors do not touch
each other (R24), and what an answered command does to its own cursor (R11, R12, R13). -/

namespace Sys2Proof
open Sys2Proof.Machine

/-! ### What kind of command it is -/

theorem Instr.isInit_of_isTransfer {i : Instr} (h : i.isTransfer = true) : i.isInit = false := by
  unfold Instr.isTransfer at h
  unfold Instr.isInit
  cases hr : i.request <;> simp_all

theorem Instr.isTransfer_of_isExtract {i : Instr} (h : i.isExtract = true) : i.isTransfer = true := by
  rw [Instr.isExtract_eq, Bool.and_eq_true] at h
  exact h.1

theorem Instr.isParser_of_isExtract {i : Instr} (h : i.isExtract = true) : i.isParser = true := by
  rw [Instr.isExtract_eq, Bool.and_eq_true] at h
  exact h.2

theorem Instr.isTransfer_of_isAdd {i : Instr} (h : i.isAdd = true) : i.isTransfer = true := by
  rw [Instr.isAdd_eq, Bool.and_eq_true] at h
  exact h.1

theorem Instr.isParser_of_isAdd {i : Instr} (h : i.isAdd = true) : i.isParser = false := by
  rw [Instr.isAdd_eq, Bool.and_eq_true, Bool.not_eq_true'] at h
  exact h.2

/-- The INIT of P is PINIT. -/
theorem Instr.eq_pinit {i : Instr} (hi : i.isInit = true) (hp : i.isParser = true) : ∃ base cap, i = .pinit base cap := by
  cases i <;> simp_all [Instr.isInit, Instr.request, Instr.isParser]

/-- The INIT of K is KINIT. -/
theorem Instr.eq_kinit {i : Instr} (hi : i.isInit = true) (hp : i.isParser = false) :
    ∃ base cap z, i = .kinit base cap z := by
  cases i <;> simp_all [Instr.isInit, Instr.request, Instr.isParser]

theorem Instr.cursorOf_parser {i : Instr} (hp : i.isParser = true) (s : State) : i.cursorOf s = s.p := by
  rw [Instr.cursorOf, if_pos hp]

theorem Instr.cursorOf_packer {i : Instr} (hp : i.isParser = false) (s : State) : i.cursorOf s = s.k := by
  rw [Instr.cursorOf, hp, if_neg Bool.false_ne_true]

/-! ### Commands that fail their checks -/

theorem exec_eq_failed {i : Instr} {s : State} {st : Status} (h : Instr.verdict i s = .fail st) :
    exec i s = .next (s.failed st) := by
  rw [exec_eq_guarded, h]
  rfl

/-- More bits asked for than remain: `EFULL` (R71, R74). -/
theorem exec_eq_efull {i : Instr} {s : State} (hi : i.isInit = false) (hw : i.widthLegal = true)
    (hb : (i.cursorOf s).remaining < i.bits) (hc : s.cfg.chkBounds = true) : exec i s = .next (s.failed .efull) :=
  exec_eq_failed (Instr.verdict_eq_fail.2 (.inr (.inl ⟨hi, hw, hb, hc, rfl⟩)))

/-- An illegal width: `EINVALID_ARG`, before any other check (R72, R74). -/
theorem exec_eq_einvalidArg_of_width {i : Instr} {s : State} (hw : i.widthLegal = false) (hc : s.cfg.chkWidth = true) :
    exec i s = .next (s.failed .einvalidArg) :=
  exec_eq_failed (Instr.verdict_eq_fail.2 (.inl ⟨hw, hc, rfl⟩))

/-! ### Reset (R21, R22) -/

/-- Nothing remains on a cursor in its reset state. -/
theorem Machine.Cursor.remaining_zero : (Cursor.mk 0 0 0).remaining = 0 := rfl

theorem Machine.Cursor.advance_zero (c : Cursor) : c.advance 0 = c := by
  rw [Cursor.advance, Nat.add_zero, BitVec.ofNat_toNat, BitVec.setWidth_eq]

/-- SKIP of 0 bits answers `OK` on every cursor and changes nothing else (R101). -/
theorem exec_skip_zero (s : State) : exec (.skip 0) s = .next (s.respond .ok 0) := by
  have hpass : checkBounds s.cfg s.p 0 = .pass := checkBounds_eq_pass.2 (Nat.zero_le _)
  show guarded (checkBounds s.cfg s.p 0) s (.next ({ s with p := s.p.advance 0 }.respond .ok 0)) = _
  rw [hpass, Cursor.advance_zero]
  rfl

theorem step_reset {s : State} {rest : List HostAction} (h : s.inbox = .reset :: rest) :
    step s = .next { s with inbox := rest }.assertReset := by
  rw [step, h]

/-- Settles O12: the step of a reset writes the six registers, and so does the launch; 0 = 0 is Exhausted. -/
theorem resetZeroesTheCursorsOnly : Obligations.ResetZeroesTheCursorsOnly := by
  unfold Obligations.ResetZeroesTheCursorsOnly
  refine ⟨fun s rest h => step_reset h, fun cfg buf => ⟨rfl, rfl, rfl, rfl⟩, rfl, rfl, rfl, ?_⟩
  exact Nat.lt_irrefl 0

/-- Settles O14: nothing remains on either cursor, so a transfer of legal width asks for too much, and one of illegal
width is stopped before. -/
theorem commandsOnTheResetState : Obligations.CommandsOnTheResetState := by
  unfold Obligations.CommandsOnTheResetState
  intro s hp hk hwidth hbounds _
  have hrem : ∀ i : Instr, (i.cursorOf s).remaining = 0 := by
    intro i
    rw [Instr.cursorOf, hp, hk, ite_self, Cursor.remaining_zero]
  refine ⟨fun i ht hw => ?_, fun i _ hw => exec_eq_einvalidArg_of_width hw hwidth, exec_skip_zero s, fun count hc => ?_⟩
  · exact exec_eq_efull (Instr.isInit_of_isTransfer ht) hw (hrem i ▸ Instr.one_le_bits hw ht) hbounds
  · exact exec_eq_efull rfl rfl (hrem (.skip count) ▸ hc) hbounds

/-! ### The two cursors are independent (R24) -/

/-- A change of the state that the checks do not see, and that commutes with failing and with the run, commutes with the
command. -/
theorem guarded_mapState {f : State → State} {v : Verdict} {s : State} {run run' : Answer}
    (hreject : ∀ st, (f s).reject st = f (s.reject st)) (hrun : run' = mapState f run) :
    guarded v (f s) run' = mapState f (guarded v s run) := by
  cases v with
  | pass => exact hrun
  | fail st => exact congrArg Host.Outcome.next (hreject st)
  | undefined why => rfl

theorem extractWindow_withK (signed : Bool) (n : Nat) (s : State) (c : Cursor) :
    extractWindow signed n { s with k := c } = mapState (fun t => { t with k := c }) (extractWindow signed n s) := by
  unfold extractWindow
  by_cases h : s.p.reaches s.cfg.bufBytes n
  · rw [if_pos h, if_pos h]
    rfl
  · rw [if_neg h, if_neg h]
    rfl

theorem insertWindow_withP (n u : Nat) (s : State) (c : Cursor) :
    insertWindow n u { s with p := c } = mapState (fun t => { t with p := c }) (insertWindow n u s) := by
  unfold insertWindow
  by_cases h : s.k.reaches s.cfg.bufBytes n
  · rw [if_pos h, if_pos h]
    rfl
  · rw [if_neg h, if_neg h]
    rfl

theorem execKinit_withP (base cap : Word) (z : Bool) (s : State) (c : Cursor) :
    execKinit base cap z { s with p := c } = mapState (fun t => { t with p := c }) (execKinit base cap z s) := by
  unfold execKinit
  cases z with
  | false => rfl
  | true =>
    by_cases h : zeroFillInside s.cfg.bufBytes base cap
    · simp only [if_true, if_pos h]
      rfl
    · simp only [if_true, if_neg h]
      rfl

/-- A command of P commutes with any change of K. -/
theorem exec_withK {i : Instr} (hp : i.isParser = true) (s : State) (c : Cursor) :
    exec i { s with k := c } = mapState (fun t => { t with k := c }) (exec i s) := by
  rcases i.shapes with ⟨_, _, rfl⟩ | ⟨_, _, _, rfl⟩ | ⟨_, rfl⟩ | ⟨_, _, _, hr, -⟩ | ⟨_, hr, -⟩ | ⟨_, _, _, -, hk⟩ |
    ⟨_, -, hk⟩
  · rfl
  · cases hp
  · exact guarded_mapState (f := fun t => { t with k := c }) (fun _ => rfl) rfl
  · rw [exec_extractInteger hr hp, exec_extractInteger hr hp]
    exact guarded_mapState (fun _ => rfl) (extractWindow_withK ..)
  · rw [exec_extractPattern hr hp, exec_extractPattern hr hp]
    exact guarded_mapState (fun _ => rfl) (extractWindow_withK ..)
  · simp [hp] at hk
  · simp [hp] at hk

/-- A command of K commutes with any change of P. -/
theorem exec_withP {i : Instr} (hp : i.isParser = false) (s : State) (c : Cursor) :
    exec i { s with p := c } = mapState (fun t => { t with p := c }) (exec i s) := by
  rcases i.shapes with ⟨_, _, rfl⟩ | ⟨_, _, _, rfl⟩ | ⟨_, rfl⟩ | ⟨_, _, _, -, hk⟩ | ⟨_, -, hk⟩ | ⟨_, _, _, hr, -⟩ |
    ⟨_, hr, -⟩
  · cases hp
  · exact execKinit_withP ..
  · cases hp
  · simp [hp] at hk
  · simp [hp] at hk
  · rw [exec_addInteger hr hp, exec_addInteger hr hp]
    exact guarded_mapState (fun _ => rfl) (insertWindow_withP ..)
  · rw [exec_addPattern hr hp, exec_addPattern hr hp]
    exact guarded_mapState (fun _ => rfl) (insertWindow_withP ..)

/-- Settles O43: each command is checks and a run that see its own cursor only. -/
theorem cursorsAreIndependent : Obligations.CursorsAreIndependent := by
  unfold Obligations.CursorsAreIndependent
  exact fun i s c => ⟨fun hp => exec_withK hp s c, fun hp => exec_withP hp s c⟩

/-! ### What an answered command does to the cursors (R11, R12, R13) -/

section answered
variable {i : Instr} {s t : State}

/-- A command of P leaves K: the case of `exec_withK` that changes nothing. -/
theorem exec_keeps_k (h : exec i s = .next t) (hp : i.isParser = true) : t.k = s.k := by
  have hcomm := exec_withK hp s s.k
  rw [show { s with k := s.k } = s from rfl, h] at hcomm
  injection hcomm with ht
  exact (congrArg State.k ht :)

/-- A command of K leaves P. -/
theorem exec_keeps_p (h : exec i s = .next t) (hp : i.isParser = false) : t.p = s.p := by
  have hcomm := exec_withP hp s s.p
  rw [show { s with p := s.p } = s from rfl, h] at hcomm
  injection hcomm with ht
  exact (congrArg State.p ht :)

/-- An answered command does one of three things to its own cursor: it binds it, moves it by its bits, which remained, or
fails and leaves the whole state but for the response. -/
theorem exec_cursorOf_cases (h : exec i s = .next t) :
    (i.isInit = true ∧ (∃ base cap, i.cursorOf t = Cursor.bind base cap) ∧ t.outbox = s.outbox ++ [⟨.ok, 0⟩]) ∨
    (i.isInit = false ∧ i.bits ≤ (i.cursorOf s).remaining ∧ i.cursorOf t = (i.cursorOf s).advance i.bits ∧
      ∃ r, t.outbox = s.outbox ++ [⟨.ok, r⟩]) ∨
    (i.isInit = false ∧ ∃ st, st ≠ .ok ∧ t = s.reject st) := by
  rcases exec_next_cases h with ⟨b, c, rfl, rfl⟩ | ⟨b, c, rfl, -, rfl⟩ | ⟨b, c, rfl, rfl⟩ | ⟨n, rfl, hb, rfl⟩ |
    ⟨sg, hx, -, -, hb, -, rfl⟩ | ⟨w, ha, -, -, -, hb, -, -, rfl⟩ | ⟨st, hst, hi, rfl⟩
  · exact .inl ⟨rfl, ⟨b, c, rfl⟩, rfl⟩
  · exact .inl ⟨rfl, ⟨b, c, rfl⟩, rfl⟩
  · exact .inl ⟨rfl, ⟨b, c, rfl⟩, rfl⟩
  · exact .inr (.inl ⟨rfl, hb, rfl, 0, rfl⟩)
  · have hi := Instr.isInit_of_isTransfer (Instr.isTransfer_of_isExtract hx)
    have hcur := Instr.cursorOf_parser (Instr.isParser_of_isExtract hx)
    exact .inr (.inl ⟨hi, by rwa [hcur], by rw [hcur, hcur]; rfl, _, rfl⟩)
  · have hi := Instr.isInit_of_isTransfer (Instr.isTransfer_of_isAdd ha)
    have hcur := Instr.cursorOf_packer (Instr.isParser_of_isAdd ha)
    exact .inr (.inl ⟨hi, by rwa [hcur], by rw [hcur, hcur]; rfl, _, rfl⟩)
  · exact .inr (.inr ⟨hi, st, hst, rfl⟩)

/-- Only INIT writes `BASE` and `CAP` (R11, R14). -/
theorem exec_keeps_base_cap (h : exec i s = .next t) (hi : i.isInit = false) :
    (i.cursorOf t).cap = (i.cursorOf s).cap ∧ (i.cursorOf t).base = (i.cursorOf s).base := by
  rcases exec_cursorOf_cases h with ⟨hinit, -, -⟩ | ⟨-, -, hcur, -⟩ | ⟨-, st, -, rfl⟩
  · simp [hi] at hinit
  · rw [hcur]
    exact ⟨rfl, rfl⟩
  · exact ⟨rfl, rfl⟩

theorem exec_pinit_binds {base cap : Word} (h : exec (.pinit base cap) s = .next t) : t.p = Cursor.bind base cap := by
  cases h
  rfl

theorem exec_kinit_binds {base cap : Word} {z : Bool} (h : exec (.kinit base cap z) s = .next t) :
    t.k = Cursor.bind base cap := by
  rcases execKinit_next_cases h with ⟨-, -, rfl⟩ | ⟨-, rfl⟩ <;> rfl

theorem exec_keeps_pos_le_cap (h : exec i s = .next t) (hle : (i.cursorOf s).pos.toNat ≤ (i.cursorOf s).cap.toNat) :
    (i.cursorOf t).pos.toNat ≤ (i.cursorOf t).cap.toNat := by
  rcases exec_cursorOf_cases h with ⟨-, ⟨base, cap, hcur⟩, -⟩ | ⟨-, hb, hcur, -⟩ | ⟨-, st, -, rfl⟩
  · rw [hcur]
    exact Nat.zero_le _
  · rw [hcur]
    exact Cursor.advance_pos_le_cap _ _ hle hb
  · exact hle

/-- R13 on both cursors: the command's own by `exec_keeps_pos_le_cap`, the other one untouched. -/
theorem exec_keeps_both_pos_le_cap (h : exec i s = .next t) (hp : s.p.pos.toNat ≤ s.p.cap.toNat)
    (hk : s.k.pos.toNat ≤ s.k.cap.toNat) : t.p.pos.toNat ≤ t.p.cap.toNat ∧ t.k.pos.toNat ≤ t.k.cap.toNat := by
  have hown := exec_keeps_pos_le_cap h
  cases hu : i.isParser with
  | true =>
    rw [Instr.cursorOf_parser hu, Instr.cursorOf_parser hu] at hown
    exact ⟨hown hp, exec_keeps_k h hu ▸ hk⟩
  | false =>
    rw [Instr.cursorOf_packer hu, Instr.cursorOf_packer hu] at hown
    exact ⟨exec_keeps_p h hu ▸ hp, hown hk⟩

/-- A command that asks for more than remains and is answered has failed (R13). -/
theorem exec_eq_reject_of_crossing (h : exec i s = .next t) (hi : i.isInit = false)
    (hb : (i.cursorOf s).remaining < i.bits) : ∃ st, st ≠ .ok ∧ t = s.reject st := by
  rcases exec_cursorOf_cases h with ⟨hinit, -, -⟩ | ⟨-, hle, -, -⟩ | ⟨-, hfail⟩
  · simp [hi] at hinit
  · omega
  · exact hfail

end answered

/-- What stands behind the earlier responses says the status. -/
theorem status_unique {out before : List Response} {st st' : Status} {r r' : Word}
    (h : out = before ++ [⟨st, r⟩]) (h' : out = before ++ [⟨st', r'⟩]) : st = st' := by
  rw [h, List.append_cancel_left_eq] at h'
  injection h' with hresp _
  exact congrArg Response.status hresp

theorem step_keeps_both_pos_le_cap {s t : State} (hp : s.p.pos.toNat ≤ s.p.cap.toNat)
    (hk : s.k.pos.toNat ≤ s.k.cap.toNat) (h : step s = .next t) :
    t.p.pos.toNat ≤ t.p.cap.toNat ∧ t.k.pos.toNat ≤ t.k.cap.toNat := by
  rcases step_next_cases h with ⟨-, rfl⟩ | ⟨_, _, _, -, -, hexec⟩ | ⟨_, _, _, -, -, rfl⟩ | ⟨_, -, rfl⟩ |
    ⟨_, _, _, -, -, rfl⟩
  · exact ⟨hp, hk⟩
  · exact exec_keeps_both_pos_le_cap hexec hp hk
  · exact ⟨hp, hk⟩
  · exact ⟨Nat.le_refl 0, Nat.le_refl 0⟩
  · exact ⟨hp, hk⟩

/-- Settles O42: 0 at the launch, kept by every kind of step; a crossing command can only have been rejected. -/
theorem positionNeverPassesCapacity : Obligations.PositionNeverPassesCapacity := by
  unfold Obligations.PositionNeverPassesCapacity
  refine ⟨fun cfg buf => ⟨Nat.le_refl 0, Nat.le_refl 0⟩, fun s t hp hk h => step_keeps_both_pos_le_cap hp hk h, ?_⟩
  intro i s t hi hb h
  obtain ⟨st, -, rfl⟩ := exec_eq_reject_of_crossing h hi hb
  exact ⟨rfl, rfl, rfl⟩

/-- Settles O44: the other cursor's commands leave a cursor, its own commands keep `BASE` and `CAP` unless they are its
INIT, and that one binds it. -/
theorem onlyInitWritesCapacityAndBase : Obligations.OnlyInitWritesCapacityAndBase := by
  unfold Obligations.OnlyInitWritesCapacityAndBase
  intro i s t h
  have hpinit : ∀ base cap, i = .pinit base cap → t.p.base = base ∧ t.p.cap = cap := by
    rintro base cap rfl
    rw [exec_pinit_binds h]
    exact ⟨rfl, rfl⟩
  have hkinit : ∀ base cap z, i = .kinit base cap z → t.k.base = base ∧ t.k.cap = cap := by
    rintro base cap z rfl
    rw [exec_kinit_binds h]
    exact ⟨rfl, rfl⟩
  refine ⟨?_, ?_, hpinit, hkinit⟩
  · cases hp : i.isParser with
    | false => exact .inl (by simp [exec_keeps_p h hp])
    | true =>
      cases hi : i.isInit with
      | false => exact .inl (by simpa only [Instr.cursorOf_parser hp] using exec_keeps_base_cap h hi)
      | true =>
        obtain ⟨base, cap, heq⟩ := Instr.eq_pinit hi hp
        exact .inr ⟨base, cap, heq, hpinit base cap heq⟩
  · cases hp : i.isParser with
    | true => exact .inl (by simp [exec_keeps_k h hp])
    | false =>
      cases hi : i.isInit with
      | false => exact .inl (by simpa only [Instr.cursorOf_packer hp] using exec_keeps_base_cap h hi)
      | true =>
        obtain ⟨base, cap, z, heq⟩ := Instr.eq_kinit hi hp
        exact .inr ⟨base, cap, z, heq, hkinit base cap z heq⟩

/-- Settles O45: a clause per thing a command can do to its cursor; the register does not wrap, as the bits remained. -/
theorem positionMovesByTheFieldSize : Obligations.PositionMovesByTheFieldSize := by
  unfold Obligations.PositionMovesByTheFieldSize
  intro i s t h
  have hotherK := fun hp => congrArg Cursor.pos (exec_keeps_k h hp)
  have hotherP := fun hp => congrArg Cursor.pos (exec_keeps_p h hp)
  rcases exec_cursorOf_cases h with ⟨hi, ⟨base, cap, hcur⟩, hout⟩ | ⟨hi, hb, hcur, r, hout⟩ | ⟨hi, st, hst, rfl⟩
  case inl =>
    rw [hcur]
    exact ⟨fun _ => rfl, by simp [hi], by simp [hi], fun _ _ hne hout' => absurd (status_unique hout' hout) hne,
      hotherK, hotherP⟩
  case inr.inl =>
    have hpos := Cursor.advance_pos_toNat (i.cursorOf s) i.bits hb
    rw [← hcur] at hpos
    exact ⟨by simp [hi], fun _ => by omega, fun _ _ _ => hpos,
      fun _ _ hne hout' => absurd (status_unique hout' hout) hne, hotherK, hotherP⟩
  case inr.inr =>
    exact ⟨by simp [hi], fun _ => Nat.le_refl _, fun _ _ hout' => absurd (status_unique rfl hout') hst,
      fun _ _ _ _ => rfl, hotherK, hotherP⟩

end Sys2Proof

/-! PROOFS. The memory: what the commands leave of `BUF` (R41). -/

namespace Sys2Proof
open Sys2Proof.Machine

/-- An answered command of P only moves or binds its cursor and responds; the commands that write `BUF` are K's: the
zero-filling KINIT and the ADDs. -/
theorem exec_keeps_buf_of_isParser {i : Instr} {s t : State} (h : exec i s = .next t) (hp : i.isParser = true) :
    t.buf = s.buf := by
  rcases exec_next_cases h with ⟨_, _, -, rfl⟩ | ⟨_, _, rfl, -, -⟩ | ⟨_, _, -, rfl⟩ | ⟨_, -, -, rfl⟩ |
    ⟨_, -, -, -, -, -, rfl⟩ | ⟨_, hadd, -⟩ | ⟨_, -, -, rfl⟩
  case inr.inl => cases hp
  case inr.inr.inr.inr.inr.inl => simp [Instr.isParser_of_isAdd hadd] at hp
  all_goals rfl

/-- Settles O25: in every way a command of P can be answered, completed or failed, `BUF` is the old one. -/
theorem parserNeverWritesBuf : Obligations.ParserNeverWritesBuf := by
  unfold Obligations.ParserNeverWritesBuf
  exact fun _ _ _ hp h => exec_keeps_buf_of_isParser h hp

end Sys2Proof

/-! PROOFS. Which control words are illegal (R53, R55), what an illegal record is answered (R56), and that every answered
record gives one response (R57). -/

namespace Sys2Proof
open Sys2Proof.Machine

/-! ### The decoder by class (R51) -/

section decoder
variable {r : Record}

theorem Record.sz_lt (r : Record) : r.sz < 4 := BitVec.isLt _

theorem Record.sz_cases (r : Record) : r.sz = 0 ∨ r.sz = 1 ∨ r.sz = 2 ∨ r.sz = 3 := by
  have := r.sz_lt
  omega

theorem decode_of_bit11 (hb : r.bit11 = true) : decode r = .illegal .bit11Set := by
  rw [decode, if_pos hb]

theorem decode_of_reserved_class (hb : r.bit11 = false) (hc : 4 ≤ r.cls) : decode r = .illegal .reservedClass := by
  unfold decode
  rw [hb, if_neg Bool.false_ne_true]
  split
  case h_5 => rfl
  all_goals omega

theorem decode_of_cls_init (hb : r.bit11 = false) (hc : r.cls = 0) : decode r = decodeInit r := by
  simp [decode, hb, hc]

theorem decode_of_cls_skip (hb : r.bit11 = false) (hc : r.cls = 1) : decode r = decodeSkip r := by
  simp [decode, hb, hc]

theorem decode_of_cls_integer (hb : r.bit11 = false) (hc : r.cls = 2) : decode r = decodeInteger r := by
  simp [decode, hb, hc]

theorem decode_of_cls_float (hb : r.bit11 = false) (hc : r.cls = 3) : decode r = decodeFloat r := by
  simp [decode, hb, hc]

theorem decodeInit_illegal_iff :
    (∃ why, decodeInit r = .illegal why) ↔ r.sz ≠ 0 ∨ r.nBits ≠ 0 ∨ (r.flagSZ = true ∧ r.unitK = false) := by
  unfold decodeInit
  split_ifs <;> simp_all

theorem decodeSkip_illegal_iff :
    (∃ why, decodeSkip r = .illegal why) ↔ r.unitK = true ∨ r.flagSZ = true ∨ r.sz ≠ 0 ∨ r.nBits ≠ 0 := by
  unfold decodeSkip
  split_ifs <;> simp_all

theorem decodeFloat_illegal_iff :
    (∃ why, decodeFloat r = .illegal why) ↔ r.flagSZ = true ∨ r.nBits ≠ 0 ∨ r.sz < 2 := by
  rcases r.sz_cases with h | h | h | h
  all_goals
    simp only [decodeFloat, h]
    split_ifs <;> simp_all

/-- An integer transfer of any unit, flag, size and width decodes, to the command that asks for that field (R51, R52). -/
theorem decodeInteger_request (r : Record) :
    ∃ i, decodeInteger r = .instr i ∧ i.request = .integer r.flagSZ (8 * 2 ^ r.sz) r.nBits := by
  unfold decodeInteger
  rcases r.sz_cases with h | h | h | h
  all_goals
    rw [h]
    cases r.unitK <;> cases r.flagSZ <;> exact ⟨_, rfl, rfl⟩

end decoder

/-! ### The reserved encodings (R55) -/

/-- The reserved encodings, as R55 lists them. -/
abbrev Record.reserved (r : Record) : Prop :=
  4 ≤ r.cls ∨ r.bit11 = true ∨ (r.cls = 1 ∧ r.unitK = true) ∨
  (r.flagSZ = true ∧ ((r.cls = 0 ∧ r.unitK = false) ∨ r.cls = 1 ∨ r.cls = 3)) ∨
  (r.sz ≠ 0 ∧ (r.cls = 0 ∨ r.cls = 1)) ∨
  (r.sz < 2 ∧ r.cls = 3) ∨
  (r.nBits ≠ 0 ∧ r.cls ≠ 2)

/-- The words each class's own decoder rejects are those the list has of that class. -/
theorem decode_illegal_iff_reserved (r : Record) : (∃ why, decode r = .illegal why) ↔ r.reserved := by
  unfold Record.reserved
  cases hb : r.bit11 with
  | true => simp [decode_of_bit11 hb]
  | false =>
    have hcls : r.cls = 0 ∨ r.cls = 1 ∨ r.cls = 2 ∨ r.cls = 3 ∨ 4 ≤ r.cls := by omega
    rcases hcls with hc | hc | hc | hc | hc
    · rw [decode_of_cls_init hb hc, decodeInit_illegal_iff]
      grind
    · rw [decode_of_cls_skip hb hc, decodeSkip_illegal_iff]
      simp [hc]
    · obtain ⟨i, hi, -⟩ := decodeInteger_request r
      simp [decode_of_cls_integer hb hc, hi, hc]
    · rw [decode_of_cls_float hb hc, decodeFloat_illegal_iff]
      grind
    · simp [decode_of_reserved_class hb hc, hc]

/-- With `N` set only the integer transfers are left. -/
theorem not_reserved_iff_of_nBits_ne_zero {r : Record} (hn : r.nBits ≠ 0) :
    ¬r.reserved ↔ r.bit11 = false ∧ r.cls = 2 := by
  unfold Record.reserved
  by_cases hc : r.cls = 2 <;> simp [hc, hn]

/-! ### The opcode table by opcode byte (R53)

Of `N` a row sees at most whether it is 0, so which words match a row is settled by the opcode byte: 256 of them, with
`N = 0` and with `N` free. -/

/-- The row's mask leaves `N` free, as the rows of the integer transfers do. -/
def OpcodeRow.ignoresN (row : OpcodeRow) : Bool := row.mask.extractLsb' 0 8 == 0#8

theorem append_extractLsb'_bytes (v : BitVec 16) : v.extractLsb' 8 8 ++ v.extractLsb' 0 8 = v := by
  rw [BitVec.extractLsb'_append_extractLsb'_eq_extractLsb' (by decide), BitVec.extractLsb'_eq_self]

/-- A row is matched byte by byte. -/
theorem OpcodeRow.hits_append_iff (row : OpcodeRow) (op x : BitVec 8) :
    row.hits (op ++ x) = true ↔
      op &&& row.mask.extractLsb' 8 8 = row.pattern.extractLsb' 8 8 ∧
      x &&& row.mask.extractLsb' 0 8 = row.pattern.extractLsb' 0 8 := by
  rw [OpcodeRow.hits, beq_iff_eq]
  nth_rw 1 [← append_extractLsb'_bytes row.mask, ← append_extractLsb'_bytes row.pattern]
  rw [BitVec.and_append]
  constructor
  · intro h
    have hhigh := congrArg (BitVec.extractLsb' 8 8) h
    have hlow := congrArg (BitVec.extractLsb' 0 8) h
    rw [BitVec.extractLsb'_append_eq_left, BitVec.extractLsb'_append_eq_left] at hhigh
    rw [BitVec.extractLsb'_append_eq_right, BitVec.extractLsb'_append_eq_right] at hlow
    exact ⟨hhigh, hlow⟩
  · rintro ⟨hhigh, hlow⟩
    rw [hhigh, hlow]

/-- Every row leaves `N` free or asks for `N = 0`. -/
theorem opcodeTable_low_bytes : ∀ row ∈ opcodeTable, row.pattern.extractLsb' 0 8 = 0#8 ∧
    (row.mask.extractLsb' 0 8 = 0#8 ∨ row.mask.extractLsb' 0 8 = BitVec.allOnes 8) := by decide

theorem hits_append_iff_of_mem {row : OpcodeRow} (hrow : row ∈ opcodeTable) (op x : BitVec 8) :
    row.hits (op ++ x) = true ↔ row.hits (op ++ 0#8) = true ∧ (x = 0#8 ∨ row.ignoresN = true) := by
  obtain ⟨hpattern, hmask⟩ := opcodeTable_low_bytes row hrow
  rw [OpcodeRow.hits_append_iff, OpcodeRow.hits_append_iff, OpcodeRow.ignoresN, hpattern]
  rcases hmask with hmask | hmask
  · simp [hmask]
  · rw [hmask, BitVec.and_allOnes, BitVec.and_allOnes]
    simp

/-- The 256 opcode bytes with `N = 0`, one by one. -/
theorem exists_row_hits_zero_iff : ∀ op : BitVec 8,
    (∃ row ∈ opcodeTable, row.hits (op ++ 0#8) = true) ↔ ¬(Record.mk (op ++ 0#8) 0 0).reserved := by decide

/-- The 256 opcode bytes with `N` free, one by one: `CLS = 010` and `CW[11] = 0`. -/
theorem exists_row_ignoresN_iff : ∀ op : BitVec 8,
    (∃ row ∈ opcodeTable, row.hits (op ++ 0#8) = true ∧ row.ignoresN = true) ↔
      op.getLsbD 3 = false ∧ op.toNat / 16 % 8 = 2 := by decide

theorem exists_row_hits_iff_not_reserved (r : Record) :
    (∃ row ∈ opcodeTable, row.hits r.cw = true) ↔ ¬r.reserved := by
  obtain ⟨cw, a, b⟩ := r
  rw [← append_extractLsb'_bytes cw]
  generalize cw.extractLsb' 8 8 = op
  generalize cw.extractLsb' 0 8 = x
  by_cases hx : x = 0#8
  · subst hx
    exact exists_row_hits_zero_iff op
  · have hn : (Record.mk (op ++ x) a b).nBits ≠ 0 := by
      rw [nBits_append]
      exact fun h => hx (BitVec.eq_of_toNat_eq h)
    rw [not_reserved_iff_of_nBits_ne_zero hn, bit11_append, cls_append, ← exists_row_ignoresN_iff]
    refine exists_congr fun row => and_congr_right fun hrow => ?_
    rw [hits_append_iff_of_mem hrow, or_iff_right hx]

/-- Settles O4: both the illegal words and the words of no row are the reserved encodings. -/
theorem illegalWordsAreTheReservedEncodings : Obligations.IllegalWordsAreTheReservedEncodings := by
  unfold Obligations.IllegalWordsAreTheReservedEncodings
  intro r
  refine ⟨?_, decode_illegal_iff_reserved r⟩
  rw [decode_illegal_iff_reserved, exists_row_hits_iff_not_reserved, not_not]

/-! ### What an illegal record is answered (R56) -/

theorem step_command {s : State} {r : Record} {rest : List HostAction} (h : s.inbox = .command r :: rest) :
    step s = runRecord r { s with inbox := rest } := by
  rw [step, h]

theorem runRecord_illegal {r : Record} {why : Illegal} (h : decode r = .illegal why) (s : State) :
    runRecord r s = .next (s.failed .einvalidArg) := by
  rw [runRecord, h]
  rfl

/-- The opcode bytes of the integer transfers: `CLS = 010` and `CW[11] = 0`, whatever `U`, `S` and `SZ`. -/
theorem fields_of_integer_op : ∀ op : BitVec 8, op &&& 0x78#8 = 0x20#8 →
    op.getLsbD 3 = false ∧ op.toNat / 16 % 8 = 2 := by decide

/-- A control word with such an opcode byte decodes for every `N`, to the transfer of `N` bits of the type width `SZ`
gives. -/
theorem decode_controlWord_integer {op : BitVec 8} {n : Nat} (a b : Word) (hop : op &&& 0x78#8 = 0x20#8) (hn : n ≤ 255) :
    ∃ i signed, decode ⟨controlWord op n, a, b⟩ = .instr i ∧
      i.request = .integer signed (8 * 2 ^ (op.toNat % 4)) n := by
  obtain ⟨hbit, hclass⟩ := fields_of_integer_op op hop
  obtain ⟨i, hdecode, hrequest⟩ := decodeInteger_request ⟨controlWord op n, a, b⟩
  rw [controlWord] at hdecode hrequest ⊢
  rw [sz_append, nBits_append, ofNat8_toNat (decide_eq_true hn)] at hrequest
  rw [← decode_of_cls_integer (by rw [bit11_append, hbit]) (by rw [cls_append, hclass])] at hdecode
  exact ⟨i, _, hdecode, hrequest⟩

/-- Settles O10: an illegal record is only rejected, and the width check, which an integer transfer meets first, rejects
alike. -/
theorem illegalCommandIsAnsweredEinvalid : Obligations.IllegalCommandIsAnsweredEinvalid := by
  unfold Obligations.IllegalCommandIsAnsweredEinvalid
  refine ⟨fun s r rest why h hd => ?_, fun op n a b hop hn => ?_⟩
  · rw [step_command h, runRecord_illegal hd]
    rfl
  · obtain ⟨i, signed, hdecode, hrequest⟩ := decode_controlWord_integer a b hop hn
    exact ⟨i, hdecode, Instr.bits_integer hrequest, Instr.widthLegal_integer hrequest,
      fun s hw hc => exec_eq_einvalidArg_of_width hw hc⟩

/-! ### One response per record (R57) -/

/-- However an answered command ends, one response is added and the command channel is not touched. -/
theorem exec_responds_once {i : Instr} {s t : State} (h : exec i s = .next t) :
    ∃ resp : Response, t.outbox = s.outbox ++ [resp] ∧ t.inbox = s.inbox := by
  rcases exec_next_cases h with ⟨_, _, -, rfl⟩ | ⟨_, _, -, -, rfl⟩ | ⟨_, _, -, rfl⟩ | ⟨_, -, -, rfl⟩ |
    ⟨_, -, -, -, -, -, rfl⟩ | ⟨_, -, -, -, -, -, -, -, rfl⟩ | ⟨_, -, -, rfl⟩ <;> exact ⟨_, rfl, rfl⟩

theorem runRecord_responds_once {r : Record} {s t : State} (h : runRecord r s = .next t) :
    ∃ resp : Response, t.outbox = s.outbox ++ [resp] ∧ t.inbox = s.inbox := by
  cases hd : decode r with
  | instr i =>
    rw [runRecord, hd] at h
    exact exec_responds_once h
  | illegal why =>
    rw [runRecord_illegal hd] at h
    cases h
    exact ⟨_, rfl, rfl⟩

theorem Machine.Response.toBits_status (resp : Response) : resp.toBits.extractLsb' 64 2 = resp.status.code :=
  BitVec.extractLsb'_append_eq_left

theorem Machine.Response.toBits_result (resp : Response) : resp.toBits.extractLsb' 0 64 = resp.result :=
  BitVec.extractLsb'_append_eq_right

theorem Machine.Status.code_ne_three (st : Status) : st.code ≠ 3 := by
  cases st <;> decide

/-- Settles O47: a step takes one record from the channel and runs it, which gives one response. -/
theorem oneResponsePerCommand : Obligations.OneResponsePerCommand := by
  unfold Obligations.OneResponsePerCommand
  refine ⟨fun s t r rest hin h => ?_, fun resp => ⟨resp.toBits_status, resp.toBits_result⟩, rfl, rfl, rfl,
    Status.code_ne_three⟩
  rw [step_command hin] at h
  exact runRecord_responds_once h

end Sys2Proof

/-! PROOFS. The bit-window primitive: the extraction datapath against the window value (R76, R77), the insert effect
(R80), what the integer EXTRACTs answer (R78, R79), and that the float commands are unsigned words (R88). -/

namespace Sys2Proof
open Sys2Proof.Machine Sys2Proof.Claims

/-! ### The window value, and the bits of a fetched word -/

/-- The window value is the only number of `n` bits that has the window's bits. -/
theorem Machine.Memory.eq_window {m : Memory} {base p n x : Nat} (hx : x < 2 ^ n)
    (hbits : ∀ i, i < n → x.testBit (n - 1 - i) = m.viewBit base (p + i)) : x = m.window base p n := by
  refine Nat.eq_of_testBit_eq fun j => ?_
  by_cases hj : j < n
  · have h := hbits (n - 1 - j) (by omega)
    rwa [← m.window_testBit base p n (n - 1 - j) (by omega), show n - 1 - (n - 1 - j) = j by omega] at h
  · have hle : 2 ^ n ≤ 2 ^ j := Nat.pow_le_pow_right Nat.two_pos (Nat.le_of_not_lt hj)
    rw [Nat.testBit_eq_false_of_lt (Nat.lt_of_lt_of_le hx hle),
      Nat.testBit_eq_false_of_lt (Nat.lt_of_lt_of_le (m.window_lt base p n) hle)]

/-- Bytes in big-endian order: the `i`-th bit from the top is the `i`-th stream bit from the first byte on
(R31, R32). -/
theorem Machine.bytesBE_testBit (lane : Nat → Byte) (a count i : Nat) (hi : i < 8 * count) :
    (bytesBE lane a count).testBit (8 * count - 1 - i) = laneBit lane (8 * a + i) := by
  induction count generalizing a i with
  | zero => omega
  | succ count ih =>
    have hpow : 256 ^ count = 2 ^ (8 * count) := by rw [Nat.pow_mul]
    have hlt : bytesBE lane (a + 1) count < 2 ^ (8 * count) := hpow ▸ bytesBE_lt lane (a + 1) count
    rw [bytesBE, hpow, Nat.mul_comm, Nat.testBit_two_pow_mul_add _ hlt]
    by_cases h8 : i < 8
    · rw [if_neg (by omega), laneBit, BitVec.testBit_toNat, show (8 * a + i) / 8 = a by omega,
        show 8 * (count + 1) - 1 - i - 8 * count = 7 - (8 * a + i) % 8 by omega]
    · have h := ih (a + 1) (i - 8) (by omega)
      rw [if_pos (by omega)]
      rwa [show 8 * count - 1 - (i - 8) = 8 * (count + 1) - 1 - i by omega,
        show 8 * (a + 1) + (i - 8) = 8 * a + i by omega] at h

section datapath
variable {lane : Nat → Byte} {w : Nat} (h8 : 8 ∣ w)
include h8

theorem Machine.fetchWord_lt (lane : Nat → Byte) (wb : Nat) : fetchWord lane wb w < 2 ^ w := by
  have h := bytesBE_lt lane wb (w / 8)
  rwa [show 256 = 2 ^ 8 by decide, ← Nat.pow_mul, Nat.mul_div_cancel' h8] at h

/-- The `i`-th bit from the top of a fetched word is the `i`-th stream bit from the word start on (R76). -/
theorem Machine.fetchWord_testBit (lane : Nat → Byte) (wb i : Nat) (hi : i < w) :
    (fetchWord lane wb w).testBit (w - 1 - i) = laneBit lane (8 * wb + i) := by
  have hw : 8 * (w / 8) = w := Nat.mul_div_cancel' h8
  have h := bytesBE_testBit lane wb (w / 8) i (by omega)
  rwa [hw] at h

/-- Before the alignment the field stands at the top of a word: shifted up out of one fetched word, or with the head of
the next word spliced in below (R76). -/
theorem Machine.extractWord_eq_shiftRight (lane : Nat → Byte) {p n wb : Nat} (hn : n ≤ w) (h1 : 8 * wb ≤ p)
    (h2 : p < 8 * wb + w) :
    ∃ x, extractWord lane p n w wb = x >>> (w - n) ∧ x < 2 ^ w ∧
      ∀ i, i < n → x.testBit (w - 1 - i) = laneBit lane (p + i) := by
  obtain ⟨o, rfl⟩ := Nat.exists_eq_add_of_le h1
  have hw : 8 * (w / 8) = w := Nat.mul_div_cancel' h8
  have hhi : ∀ i, i < w → ((fetchWord lane wb w <<< o) % 2 ^ w).testBit (w - 1 - i) =
      (decide (o + i < w) && laneBit lane (8 * wb + o + i)) := by
    intro i hi
    rw [Nat.testBit_mod_two_pow, Nat.testBit_shiftLeft, decide_eq_true (show w - 1 - i < w by omega), Bool.true_and]
    by_cases ho : o + i < w
    · rw [show w - 1 - i - o = w - 1 - (o + i) by omega, fetchWord_testBit h8 lane wb (o + i) ho,
        Nat.add_assoc, decide_eq_true ho, decide_eq_true (show w - 1 - i ≥ o by omega)]
    · rw [decide_eq_false ho, decide_eq_false (show ¬w - 1 - i ≥ o by omega), Bool.false_and, Bool.false_and]
  have hhilt : (fetchWord lane wb w <<< o) % 2 ^ w < 2 ^ w := Nat.mod_lt _ (Nat.two_pow_pos w)
  unfold extractWord
  dsimp only
  rw [Nat.add_sub_cancel_left]
  split
  · rename_i hone
    refine ⟨_, rfl, hhilt, fun i hi => ?_⟩
    rw [hhi i (by omega), decide_eq_true (show o + i < w by omega), Bool.true_and]
  · have hlolt := fetchWord_lt h8 lane (wb + w / 8)
    refine ⟨_, rfl, Nat.or_lt_two_pow hhilt (Nat.lt_of_le_of_lt (Nat.shiftRight_le _ _) hlolt), fun i hi => ?_⟩
    rw [Nat.testBit_or, hhi i (by omega), Nat.testBit_shiftRight]
    by_cases ho : o + i < w
    · have hout : fetchWord lane (wb + w / 8) w < 2 ^ (w - o + (w - 1 - i)) :=
        Nat.lt_of_lt_of_le hlolt (Nat.pow_le_pow_right Nat.two_pos (by omega))
      rw [Nat.testBit_eq_false_of_lt hout, decide_eq_true ho, Bool.true_and, Bool.or_false]
    · rw [show w - o + (w - 1 - i) = w - 1 - (o + i - w) by omega,
        fetchWord_testBit h8 lane (wb + w / 8) (o + i - w) (by omega), decide_eq_false ho, Bool.false_and,
        Bool.false_or, show 8 * (wb + w / 8) + (o + i - w) = 8 * wb + o + i by omega]

/-- R77: over lanes that hold the window's bits, the datapath gives the window value. -/
theorem Machine.extractWord_eq_window {m : Memory} {base p n wb : Nat} {lane : Nat → Byte} (hn : n ≤ w)
    (h1 : 8 * wb ≤ p) (h2 : p < 8 * wb + w)
    (hlane : ∀ i, i < n → laneBit lane (p + i) = m.viewBit base (p + i)) :
    extractWord lane p n w wb = m.window base p n := by
  obtain ⟨x, hx, hlt, hbits⟩ := extractWord_eq_shiftRight h8 lane hn h1 h2
  rw [hx]
  refine Memory.eq_window ?_ fun i hi => ?_
  · rw [Nat.shiftRight_eq_div_pow]
    exact Nat.div_lt_of_lt_mul (by rwa [← Nat.pow_add, Nat.sub_add_cancel hn])
  · rw [Nat.testBit_shiftRight, show w - n + (n - 1 - i) = w - 1 - i by omega, hbits i hi, hlane i hi]

end datapath

/-- The lanes that R76 fetches hold the window's bits: their bytes are bytes of the footprint. -/
theorem Machine.Memory.laneBit_lanes (m : Memory) (base p n : Nat) (filler : Nat → Byte) {i : Nat} (hi : i < n) :
    laneBit (m.lanes base p n filler) (p + i) = m.viewBit base (p + i) := by
  have hin : p / 8 ≤ (p + i) / 8 ∧ (p + i) / 8 ≤ (p + n - 1) / 8 := by omega
  rw [Memory.viewBit, laneBit, laneBit, Memory.lanes, if_pos hin]

theorem Machine.wordStartByte_allowed {p w : Nat} (hw : 8 ≤ w) :
    8 * wordStartByte p ≤ p ∧ p < 8 * wordStartByte p + w := by
  unfold wordStartByte
  omega

theorem Machine.wordStartAligned_allowed {p w : Nat} (h8 : 8 ∣ w) (hw : 0 < w) :
    8 * wordStartAligned p w ≤ p ∧ p < 8 * wordStartAligned p w + w := by
  have hstart : 8 * wordStartAligned p w = w * (p / w) := by
    rw [wordStartAligned, Nat.mul_left_comm, Nat.mul_div_cancel' h8, Nat.mul_comm]
  have hdiv := Nat.div_add_mod p w
  have hmod := Nat.mod_lt p hw
  omega

theorem dvd_and_le_of_mem_widths : ∀ w ∈ [8, 16, 32, 64], 8 ∣ w ∧ 8 ≤ w := by decide

/-- Settles O22: bit by bit, the aligned word is the window, in one word or spliced from two. -/
theorem extractionDatapathIsTheWindow : Obligations.ExtractionDatapathIsTheWindow := by
  unfold Obligations.ExtractionDatapathIsTheWindow
  refine ⟨fun m base p n w wb lane hw _ hn h1 h2 hlane => ?_, fun m base p n w wb filler hw _ hn h1 h2 => ?_,
    fun p w hw => ?_⟩ <;> obtain ⟨h8, hle⟩ := dvd_and_le_of_mem_widths w hw
  · exact extractWord_eq_window h8 hn h1 h2 hlane
  · exact extractWord_eq_window h8 hn h1 h2 fun i hi => m.laneBit_lanes base p n filler hi
  · exact ⟨wordStartByte_allowed hle, wordStartAligned_allowed h8 (by omega)⟩

/-! ### The insert effect (R80) -/

/-- Bits outside the window stay. -/
theorem Machine.Memory.viewBit_insert_outside (m : Memory) {base p n k : Nat} (u : Nat)
    (h : ¬(p ≤ k ∧ k < p + n)) : (m.insert base p u n).viewBit base k = m.viewBit base k := by
  rw [Memory.viewBit_insert, decide_eq_false h, Bool.false_and, Bool.or_false]

/-- Bits of the window are OR-ed with the field's, the most significant first. -/
theorem Machine.Memory.viewBit_insert_inside (m : Memory) (base p u : Nat) {n i : Nat} (hi : i < n) :
    (m.insert base p u n).viewBit base (p + i) = (m.viewBit base (p + i) || u.testBit (n - 1 - i)) := by
  rw [Memory.viewBit_insert, decide_eq_true (show p ≤ p + i ∧ p + i < p + n by omega), Bool.true_and,
    show p + n - 1 - (p + i) = n - 1 - i by omega]

/-- An insertion clears no bit. -/
theorem Machine.Memory.getLsbD_read_insert_of_set (m : Memory) (base p u n : Nat) {a j : Nat}
    (h : (m.read a).getLsbD j = true) : ((m.insert base p u n).read a).getLsbD j = true := by
  rw [Memory.getLsbD_read_insert m base p u n a j (BitVec.lt_of_getLsbD h), h, Bool.true_or]

/-- Settles O33: the bits of the window take the OR, and every other bit and byte stays. -/
theorem insertOrsIntoTheWindow : Obligations.InsertOrsIntoTheWindow := by
  unfold Obligations.InsertOrsIntoTheWindow
  intro m base p u n
  refine ⟨fun i hi => m.viewBit_insert_inside base p u hi, fun k hk => m.viewBit_insert_outside u hk, fun a ha => ?_,
    fun a j h => m.getLsbD_read_insert_of_set base p u n h, fun a ha => m.read_insert_outside u ha⟩
  have hbelow : ¬inFootprint base p n a := by omega
  exact m.read_insert_outside u hbelow

/-! ### What an EXTRACT answers -/

/-- A window read of bits that remain, inside `BUF`, is answered, and only `P.POS` moves (R41, R58, R84). -/
theorem Machine.extractWindow_answered {signed : Bool} {n : Nat} {s : State} (hn : n ≤ s.p.remaining)
    (hr : s.p.reaches s.cfg.bufBytes n) :
    ∃ t, extractWindow signed n s = .next t ∧
      ParserAnswered s t n (resultOf signed n (s.buf.window s.p.base.toNat s.p.pos.toNat n)) :=
  ⟨_, extractWindow_eq_next.2 ⟨hr, rfl⟩, s.p.advance_pos_toNat n hn, rfl, rfl, rfl, rfl, rfl, rfl, fun _ => rfl⟩

/-- An integer EXTRACT of a field that can be moved completes with its window. -/
theorem exec_extractInteger_answered {i : Instr} {signed : Bool} {w n : Nat} {s : State}
    (hi : i.request = .integer signed w n ∧ i.isParser = true) (hc : canTransfer s.cfg s.p w n) :
    ∃ t, exec i s = .next t ∧
      ParserAnswered s t n (resultOf signed n (s.buf.window s.p.base.toNat s.p.pos.toNat n)) := by
  obtain ⟨hw, hn, hr⟩ := hc
  rw [exec_extractInteger hi.1 hi.2, extractInteger, checkExtract_eq_pass.2 ⟨hw, hn⟩]
  exact extractWindow_answered hn hr

theorem unsignedExtracts_request {w : Nat} {mk : Nat → Instr} (h : (w, mk) ∈ unsignedExtracts) (n : Nat) :
    (mk n).request = .integer false w n ∧ (mk n).isParser = true := by
  simp only [unsignedExtracts, List.mem_cons, Prod.mk.injEq, List.not_mem_nil, or_false] at h
  rcases h with ⟨rfl, rfl⟩ | ⟨rfl, rfl⟩ | ⟨rfl, rfl⟩ | ⟨rfl, rfl⟩ <;> exact ⟨rfl, rfl⟩

theorem signedExtracts_request {w : Nat} {mk : Nat → Instr} (h : (w, mk) ∈ signedExtracts) (n : Nat) :
    (mk n).request = .integer true w n ∧ (mk n).isParser = true := by
  simp only [signedExtracts, List.mem_cons, Prod.mk.injEq, List.not_mem_nil, or_false] at h
  rcases h with ⟨rfl, rfl⟩ | ⟨rfl, rfl⟩ | ⟨rfl, rfl⟩ | ⟨rfl, rfl⟩ <;> exact ⟨rfl, rfl⟩

theorem Instr.integer_width_le {i : Instr} {signed : Bool} {w n : Nat} (hr : i.request = .integer signed w n) :
    w ≤ 64 := by
  have := Instr.integer_width hr
  omega

/-! ### Zero extension and sign extension of the window (R58, R78, R79) -/

section results
variable {n r : Nat}

theorem Machine.resultOf_unsigned_toNat (hn : n ≤ 64) (hr : r < 2 ^ n) : (resultOf false n r).toNat = r :=
  Nat.mod_eq_of_lt (Nat.lt_of_lt_of_le hr (Nat.pow_le_pow_right Nat.two_pos hn))

theorem Machine.resultOf_unsigned_getLsbD (hn : n ≤ 64) (hr : r < 2 ^ n) (i : Nat) :
    (resultOf false n r).getLsbD i = r.testBit i := by
  rw [← BitVec.testBit_toNat, resultOf_unsigned_toNat hn hr]

/-- `sext_n` reads an `n`-bit pattern as a two's-complement number (R8). -/
theorem Machine.sext_eq_toInt (hr : r < 2 ^ n) : sext n r = (BitVec.ofNat n r).toInt := by
  rw [sext, BitVec.toInt_eq_msb_cond, BitVec.msb_eq_getLsbD_last, ← BitVec.testBit_toNat, BitVec.toNat_ofNat,
    Nat.mod_eq_of_lt hr, Nat.cast_pow, Nat.cast_ofNat]

/-- A signed `RESULT` is the library's sign extension of the `n`-bit pattern. -/
theorem Machine.resultOf_signed (hr : r < 2 ^ n) : resultOf true n r = (BitVec.ofNat n r).signExtend 64 := by
  rw [resultOf, if_pos rfl, sext_eq_toInt hr, BitVec.signExtend]

theorem Machine.resultOf_signed_toInt (hn : n ≤ 64) (hr : r < 2 ^ n) : (resultOf true n r).toInt = sext n r := by
  rw [resultOf_signed hr, BitVec.toInt_signExtend_of_le hn, sext_eq_toInt hr]

/-- The bits below `n` are the pattern's. -/
theorem Machine.resultOf_signed_getLsbD_low (hn : n ≤ 64) (hr : r < 2 ^ n) {i : Nat} (hi : i < n) :
    (resultOf true n r).getLsbD i = r.testBit i := by
  rw [resultOf_signed hr, BitVec.getLsbD_signExtend, decide_eq_true (show i < 64 by omega), Bool.true_and, if_pos hi,
    BitVec.getLsbD_ofNat, decide_eq_true hi, Bool.true_and]

/-- The bits from `n` up are its sign. -/
theorem Machine.resultOf_signed_getLsbD_high (hr : r < 2 ^ n) {i : Nat} (hi : n ≤ i) (h64 : i < 64) :
    (resultOf true n r).getLsbD i = r.testBit (n - 1) := by
  rw [resultOf_signed hr, BitVec.getLsbD_signExtend, decide_eq_true h64, Bool.true_and, if_neg (Nat.not_lt.2 hi),
    BitVec.msb_eq_getLsbD_last, ← BitVec.testBit_toNat, BitVec.toNat_ofNat, Nat.mod_eq_of_lt hr]

/-- The range of a signed field of `n` bits (R79). -/
theorem Machine.sext_bounds (hr : r < 2 ^ n) : -(2 ^ (n - 1) : Int) ≤ sext n r ∧ sext n r ≤ 2 ^ (n - 1) - 1 := by
  rw [sext_eq_toInt hr]
  exact ⟨BitVec.le_toInt _, BitVec.toInt_le⟩

end results

/-- Settles O17: the command answers its window, whose bits are those of the stream and whose value fits 64 bits. -/
theorem unsignedExtractsReadTheWindow : Obligations.UnsignedExtractsReadTheWindow := by
  unfold Obligations.UnsignedExtractsReadTheWindow
  intro w mk hmk s n hc
  have hreq := unsignedExtracts_request hmk n
  have hn : n ≤ 64 := Nat.le_trans hc.1.2 (Instr.integer_width_le hreq.1)
  have hlt := s.buf.window_lt s.p.base.toNat s.p.pos.toNat n
  obtain ⟨t, ht, hans⟩ := exec_extractInteger_answered hreq hc
  refine ⟨t, _, ht, hans, fun i hi => ?_, fun i hi => ?_, resultOf_unsigned_toNat hn hlt⟩
  · rw [resultOf_unsigned_getLsbD hn hlt, Memory.window_testBit _ _ _ _ _ hi]
  · rw [resultOf_unsigned_getLsbD hn hlt]
    exact Nat.testBit_eq_false_of_lt (Nat.lt_of_lt_of_le hlt (Nat.pow_le_pow_right Nat.two_pos hi))

/-- Settles O18: the command answers the sign extension of its window; the first bit read is bit `n - 1`, the sign. -/
theorem signedExtractsSignExtend : Obligations.SignedExtractsSignExtend := by
  unfold Obligations.SignedExtractsSignExtend
  intro w mk hmk s n hc
  have hreq := signedExtracts_request hmk n
  have hpos : 1 ≤ n := hc.1.1
  have hn : n ≤ 64 := Nat.le_trans hc.1.2 (Instr.integer_width_le hreq.1)
  have hlt := s.buf.window_lt s.p.base.toNat s.p.pos.toNat n
  have hsign := s.buf.window_testBit s.p.base.toNat s.p.pos.toNat n 0 hpos
  rw [Nat.sub_zero, Nat.add_zero] at hsign
  obtain ⟨t, ht, hans⟩ := exec_extractInteger_answered hreq hc
  refine ⟨t, _, ht, hans, fun i hi => ?_, fun i hi h64 => ?_, resultOf_signed_toInt hn hlt, ?_⟩
  · rw [resultOf_signed_getLsbD_low hn hlt (by omega), Memory.window_testBit _ _ _ _ _ hi]
  · rw [← hsign]
    rcases Nat.eq_or_lt_of_le hi with rfl | hi
    · exact resultOf_signed_getLsbD_low hn hlt (by omega)
    · exact resultOf_signed_getLsbD_high hlt (by omega) h64
  · rw [resultOf_signed_toInt hn hlt]
    exact sext_bounds hlt

/-! ### A field of the type's own width (R88): the width and range checks pass, and nothing is cut -/

section native
variable {w : Nat} (hw : 1 ≤ w)

theorem Machine.rangeOK_native (w : Nat) (a : Word) : rangeOK false w w a = true := by
  have hlt : lowBits w a < 2 ^ w := Nat.mod_lt _ (Nat.two_pow_pos w)
  exact decide_eq_true (Nat.le_sub_one_of_lt hlt)

theorem Machine.fieldOf_native (w : Nat) (a : Word) : fieldOf w w a = lowBits w a := Nat.mod_mod _ _

include hw

theorem Machine.extractInteger_native (s : State) : extractInteger false w w s = extractPattern w s := by
  rw [extractInteger, extractPattern, checkExtract, checkWidth_eq_pass.2 ⟨hw, Nat.le_refl w⟩, Verdict.andThen]

theorem Machine.addInteger_native (value : Word) (s : State) : addInteger false w value w s = addPattern w value s := by
  have hrange : checkRange s.cfg false w w value = .pass := checkRange_eq_pass.2 (.inl (rangeOK_native w value))
  rw [addInteger, addPattern, fieldOf_native, checkAdd, checkWidth_eq_pass.2 ⟨hw, Nat.le_refl w⟩, hrange]
  cases checkBounds s.cfg s.k w <;> rfl

end native

/-- Settles O37: a float command is the unsigned command of the type's own width. -/
theorem floatsAreUnsignedWords : Obligations.FloatsAreUnsignedWords := by
  unfold Obligations.FloatsAreUnsignedWords
  intro s
  have h32 : 1 ≤ 32 := by decide
  have h64 : 1 ≤ 64 := by decide
  exact ⟨(extractInteger_native h32 s).symm, (extractInteger_native h64 s).symm, fun pattern =>
    ⟨(addInteger_native h32 pattern s).symm, (addInteger_native h64 pattern s).symm⟩⟩

end Sys2Proof

/-! PROOFS. The parser commands that move no data: PINIT (R100) and SKIP (R101). -/

namespace Sys2Proof
open Sys2Proof.Machine

/-! ### Their control words (R53) -/

section fields
variable {r : Record}

theorem decodeInit_eq_pinit (hs : r.sz = 0) (hn : r.nBits = 0) (hu : r.unitK = false) (hf : r.flagSZ = false) :
    decodeInit r = .instr (.pinit r.b r.a) := by
  simp [decodeInit, hs, hn, hu, hf]

theorem decodeSkip_eq_skip (hs : r.sz = 0) (hn : r.nBits = 0) (hu : r.unitK = false) (hf : r.flagSZ = false) :
    decodeSkip r = .instr (.skip r.a) := by
  simp [decodeSkip, hs, hn, hu, hf]

end fields

/-- All fields of 0x0000 are 0: class INIT of the parser. -/
theorem decode_pinit (base cap : Word) : decode ⟨0x0000, cap, base⟩ = .instr (.pinit base cap) :=
  calc decode ⟨0x00#8 ++ 0x00#8, cap, base⟩
    _ = decodeInit ⟨0x00#8 ++ 0x00#8, cap, base⟩ := decode_of_cls_init (bit11_append ..) (cls_append ..)
    _ = .instr (.pinit base cap) :=
      decodeInit_eq_pinit (sz_append ..) (nBits_append ..) (unitK_append ..) (flagSZ_append ..)

/-- All fields of 0x1000 are 0 but the class, SKIP; operand `B` is unused (R54). -/
theorem decode_skip (count b : Word) : decode ⟨0x1000, count, b⟩ = .instr (.skip count) :=
  calc decode ⟨0x10#8 ++ 0x00#8, count, b⟩
    _ = decodeSkip ⟨0x10#8 ++ 0x00#8, count, b⟩ := decode_of_cls_skip (bit11_append ..) (cls_append ..)
    _ = .instr (.skip count) :=
      decodeSkip_eq_skip (sz_append ..) (nBits_append ..) (unitK_append ..) (flagSZ_append ..)

/-! ### What SKIP answers (R101) -/

/-- A SKIP over bits that remain moves the cursor and answers `OK`. -/
theorem exec_skip_of_le {count : Word} {s : State} (h : count.toNat ≤ s.p.remaining) :
    exec (.skip count) s = .next ({ s with p := s.p.advance count.toNat }.respond .ok 0) := by
  have hpass : Instr.verdict (.skip count) s = .pass := checkBounds_eq_pass.2 h
  rw [exec_eq_guarded, hpass]
  rfl

/-- The one check of SKIP is the bounds check, which fails with `EFULL` only. -/
theorem exec_skip_ne_failed {count : Word} {s : State} {st : Status} (hok : st ≠ .ok) (hfull : st ≠ .efull) :
    exec (.skip count) s ≠ .next (s.failed st) := by
  intro h
  rcases execSkip_next_cases h with ⟨-, ht⟩ | ⟨st', hv, ht⟩
  · exact hok (status_unique rfl (congrArg State.outbox ht))
  · obtain ⟨-, -, rfl⟩ := checkBounds_eq_fail.1 hv
    exact hfull (status_unique rfl (congrArg State.outbox ht))

/-- Settles O16: the bounds check passes when the count remains, and is the only check there is to fail. -/
theorem skipAdvancesOrAnswersEfull : Obligations.SkipAdvancesOrAnswersEfull := by
  unfold Obligations.SkipAdvancesOrAnswersEfull
  intro s count
  refine ⟨decode_skip count, exec_skip_ne_failed (by decide) (by decide), fun h => ?_, fun h hc => ?_⟩
  · have hpos := s.p.advance_pos_toNat count.toNat h
    exact ⟨_, exec_skip_of_le h, ⟨hpos, rfl, rfl, rfl, rfl, rfl, rfl, fun _ => rfl⟩, rfl⟩
  · exact exec_eq_efull rfl rfl h hc

/-! ### What PINIT answers (R100) -/

theorem exec_pinit (base cap : Word) (s : State) :
    exec (.pinit base cap) s = .next ({ s with p := Cursor.bind base cap }.respond .ok 0) := rfl

/-- Settles O15: PINIT has no check, so every state and view gets its one effect. -/
theorem pinitBindsTheView : Obligations.PinitBindsTheView := by
  unfold Obligations.PinitBindsTheView
  exact fun s base cap => ⟨decode_pinit base cap, exec_pinit base cap s⟩

end Sys2Proof

/-! PROOFS. What a failing command leaves and reads (R144). -/

namespace Sys2Proof
open Sys2Proof.Machine

/-- The checks do not look at `BUF`. -/
theorem Instr.verdict_withBuf (i : Instr) (s : State) (b : Memory) :
    Instr.verdict i { s with buf := b } = Instr.verdict i s := rfl

section failures
variable {i : Instr} {s t : State}

/-- Both kinds of transfer, when their footprint lies in `BUF`, answer `OK`. -/
theorem transfer_responds_ok {parser signed : Bool} {n u : Nat}
    (h : (if parser then extractWindow signed n s else insertWindow n u s) = .next t) :
    ∃ r, t.outbox = s.outbox ++ [⟨.ok, r⟩] := by
  split at h
  · obtain ⟨-, rfl⟩ := extractWindow_eq_next.1 h
    exact ⟨_, rfl⟩
  · obtain ⟨-, rfl⟩ := insertWindow_eq_next.1 h
    exact ⟨_, rfl⟩

/-- Behind its checks a command that is answered is answered `OK`: there is nothing left for it to fail on. -/
theorem Instr.effect_responds_ok (h : Instr.effect i s = .next t) : ∃ r, t.outbox = s.outbox ++ [⟨.ok, r⟩] := by
  unfold Instr.effect at h
  cases hr : i.request <;> rw [hr] at h
  case init =>
    have hi : i.isInit = true := by rw [Instr.isInit, hr]
    rcases exec_cursorOf_cases h with ⟨-, -, hout⟩ | ⟨hni, -⟩ | ⟨hni, -⟩
    · exact ⟨0, hout⟩
    · simp [hi] at hni
    · simp [hi] at hni
  case skip count =>
    cases h
    exact ⟨0, rfl⟩
  case integer signed w n => exact transfer_responds_ok h
  case float w => exact transfer_responds_ok h

/-- A failure answered is a check that failed, with the status answered. -/
theorem Instr.verdict_eq_fail_of_response {st : Status} {r : Word} (h : exec i s = .next t) (hst : st ≠ .ok)
    (hout : t.outbox = s.outbox ++ [⟨st, r⟩]) : Instr.verdict i s = .fail st := by
  rw [exec_eq_guarded] at h
  rcases guarded_eq_next.1 h with ⟨-, heffect⟩ | ⟨st', hfail, rfl⟩
  · obtain ⟨r', hok⟩ := Instr.effect_responds_ok heffect
    exact absurd (status_unique hout hok) hst
  · rwa [status_unique hout rfl]

end failures

/-- Settles O46: only a check can have failed; a failed check ends the command with its response and nothing else, and
says the same whatever `BUF` holds. -/
theorem failuresChangeNothing : Obligations.FailuresChangeNothing := by
  unfold Obligations.FailuresChangeNothing
  intro i s t st r h hst hout
  have hfail := Instr.verdict_eq_fail_of_response h hst hout
  refine ⟨?_, fun b => exec_eq_failed (i.verdict_withBuf s b ▸ hfail)⟩
  rw [exec_eq_failed hfail] at h
  injection h with ht
  exact ht.symm

end Sys2Proof

/-! PROOFS. The two forms of a record (R50), and that the decoder and the encoder agree (R51 to R55, R60). -/

namespace Sys2Proof
open Sys2Proof.Machine

/-! ### A record as bits and as bytes (R50) -/

theorem Record.ofBits_toBits (r : Record) : Record.ofBits r.toBits = r := by
  have hcw : r.toBits.extractLsb' 128 16 = r.cw :=
    calc (r.cw ++ r.a ++ r.b).extractLsb' 128 16
      _ = (r.cw ++ r.a).extractLsb' 64 16 := BitVec.extractLsb'_append_eq_of_le (by decide)
      _ = r.cw := BitVec.extractLsb'_append_eq_left
  have ha : r.toBits.extractLsb' 64 64 = r.a :=
    calc (r.cw ++ r.a ++ r.b).extractLsb' 64 64
      _ = (r.cw ++ r.a).extractLsb' 0 64 := BitVec.extractLsb'_append_eq_of_le (by decide)
      _ = r.a := BitVec.extractLsb'_append_eq_right
  have hb : r.toBits.extractLsb' 0 64 = r.b := BitVec.extractLsb'_append_eq_right
  rw [Record.ofBits, hcw, ha, hb]

theorem beNat_append (xs ys : List Byte) : beNat (xs ++ ys) = beNat xs * 256 ^ ys.length + beNat ys := by
  induction xs with
  | nil => simp [beNat]
  | cons x xs ih =>
    rw [List.cons_append, beNat, ih, beNat, List.length_append, Nat.pow_add, Nat.add_mul, Nat.mul_assoc, Nat.add_assoc]

/-- Enough bytes for all the bits lose none. -/
theorem beNat_beBytes_toNat {w : Nat} (count : Nat) (x : BitVec w) (h : 8 * count = w) :
    beNat (beBytes count x.toNat) = x.toNat := by
  have hpow : 256 ^ count = 2 ^ w := by rw [← h, Nat.pow_mul]
  rw [beNat_beBytes, hpow, Nat.mod_eq_of_lt x.isLt]

theorem Record.length_toBytes (r : Record) : r.toBytes.length = 18 := by
  simp [Record.toBytes]

theorem Record.ofBytes_toBytes (r : Record) : Record.ofBytes r.toBytes = some r := by
  have hcw : r.toBytes.take 2 = beBytes 2 r.cw.toNat := by simp [Record.toBytes]
  have ha : (r.toBytes.drop 2).take 8 = beBytes 8 r.a.toNat := by simp [Record.toBytes]
  have hb : r.toBytes.drop 10 = beBytes 8 r.b.toNat := List.drop_left' (by simp)
  rw [Record.ofBytes, if_pos r.length_toBytes, hcw, ha, hb, beNat_beBytes_toNat 2 r.cw rfl,
    beNat_beBytes_toNat 8 r.a rfl, beNat_beBytes_toNat 8 r.b rfl]
  simp

theorem Record.beNat_toBytes (r : Record) : beNat r.toBytes = r.toBits.toNat := by
  have ha : r.a.toNat < 2 ^ 64 := r.a.isLt
  have hb : r.b.toNat < 2 ^ 64 := r.b.isLt
  have hlow : (r.cw ++ r.a).toNat = r.cw.toNat * 2 ^ 64 + r.a.toNat := by
    rw [BitVec.toNat_append, ← Nat.shiftLeft_add_eq_or_of_lt ha, Nat.shiftLeft_eq]
  rw [Record.toBytes, beNat_append, beNat_append, length_beBytes, length_beBytes, beNat_beBytes_toNat 2 r.cw rfl,
    beNat_beBytes_toNat 8 r.a rfl, beNat_beBytes_toNat 8 r.b rfl, Record.toBits, BitVec.toNat_append,
    ← Nat.shiftLeft_add_eq_or_of_lt hb, Nat.shiftLeft_eq, hlow, show 256 ^ 8 = 2 ^ 64 by decide]

theorem decodeBytes_toBytes (r : Record) : decodeBytes r.toBytes = decode r := by
  rw [decodeBytes, Record.ofBytes_toBytes]

theorem decodeBytes_of_length_ne {bs : List Byte} (h : bs.length ≠ 18) : decodeBytes bs = .illegal .notOneRecord := by
  rw [decodeBytes, Record.ofBytes, if_neg h]

/-- Settles O6: the fields stand side by side in both forms, and 18 bytes are the 144 bits. -/
theorem recordsSurviveBitsAndBytes : Obligations.RecordsSurviveBitsAndBytes := by
  unfold Obligations.RecordsSurviveBitsAndBytes
  exact ⟨fun r => ⟨r.ofBits_toBits, r.ofBytes_toBytes, r.length_toBytes, r.beNat_toBytes⟩,
    fun _ h => decodeBytes_of_length_ne h⟩

/-! ### The encoder's control words decode (R53) -/

theorem decodeInit_eq_kinit {r : Record} (hs : r.sz = 0) (hn : r.nBits = 0) (hu : r.unitK = true) :
    decodeInit r = .instr (.kinit r.b r.a r.flagSZ) := by
  simp [decodeInit, hs, hn, hu]

/-- All fields of 0x8000 are 0 but the unit, K; 0x8400 has `Z` as well. -/
theorem decode_kinit (base cap : Word) (z : Bool) :
    decode ⟨controlWord (if z then 0x84#8 else 0x80#8) 0, cap, base⟩ = .instr (.kinit base cap z) := by
  have hop : ∀ op x : BitVec 8, op.getLsbD 3 = false → op.toNat / 16 % 8 = 0 → op.toNat % 4 = 0 → x.toNat = 0 →
      op.getLsbD 7 = true → decode ⟨op ++ x, cap, base⟩ = .instr (.kinit base cap (op.getLsbD 2)) := by
    intro op x hbit hclass hsize hn hunit
    rw [decode_of_cls_init (by rw [bit11_append, hbit]) (by rw [cls_append, hclass]),
      decodeInit_eq_kinit (by rw [sz_append, hsize]) (by rw [nBits_append, hn]) (by rw [unitK_append, hunit]),
      flagSZ_append]
  cases z with
  | false => exact hop 0x80#8 _ rfl rfl rfl rfl rfl
  | true => exact hop 0x84#8 _ rfl rfl rfl rfl rfl

/-- The class of an integer transfer, whatever the width: its unit, flag and size are those of its opcode byte. -/
theorem decode_controlWord_eq_decodeInteger {op : BitVec 8} (n : Nat) (a b : Word) (hop : op &&& 0x78#8 = 0x20#8) :
    decode ⟨controlWord op n, a, b⟩ = decodeInteger ⟨controlWord op n, a, b⟩ := by
  obtain ⟨hbit, hclass⟩ := fields_of_integer_op op hop
  exact decode_of_cls_integer (by rw [controlWord, bit11_append, hbit]) (by rw [controlWord, cls_append, hclass])

/-- Each opcode byte leads to its command's own row, and a width that fits `N` comes back. -/
theorem decode_encode {i : Instr} (h : i.wellFormed = true) : decode (encode i) = .instr i := by
  cases i
  case pinit base cap => exact decode_pinit base cap
  case skip count => exact decode_skip count 0
  case kinit base cap z => exact decode_kinit base cap z
  case extractFloat | extractDouble | addFloat | addDouble =>
    refine (decode_of_cls_float (bit11_append ..) (cls_append ..)).trans ?_
    simp only [encode, controlWord, decodeFloat, flagSZ_append, nBits_append, sz_append, unitK_append]
    rfl
  all_goals
    have hn := ofNat8_toNat h
    refine (decode_controlWord_eq_decodeInteger _ _ _ (by decide)).trans ?_
    simp [controlWord, decodeInteger, unitK_append, flagSZ_append, sz_append, nBits_append, hn, -BitVec.toNat_ofNat]

/-- Settles O1: the bytes carry the record, and the record decodes. -/
theorem decodeEncodeAgree : Obligations.DecodeEncodeAgree := by
  unfold Obligations.DecodeEncodeAgree
  intro i h
  rw [decodeBytes_toBytes]
  exact ⟨decode_encode h, decode_encode h⟩

end Sys2Proof

/-! PROOFS. The step: what it takes from the host and runs (R42, R43, R62), the invariant (R13, R30), and who writes a
byte of `BUF` (R161). -/

namespace Sys2Proof
open Sys2Proof.Machine

/-! ### What a step takes (R42, R43) -/

theorem runRecord_instr {r : Record} {i : Instr} (h : decode r = .instr i) (s : State) : runRecord r s = exec i s := by
  rw [runRecord, h]

theorem decode_ofTableWord {nbits w : Nat} {i : Instr} (h : decodeTableWord nbits w = some i) :
    decode (Record.ofTableWord nbits w) = .instr i := by
  rw [decodeTableWord, decodeBytes_toBytes] at h
  split at h
  · rename_i j hj
    rw [hj, Option.some.inj h]
  · cases h

/-- Settles O9: a step runs the record at the head of the channel; bytes and table words stand for records. -/
theorem stepRunsTheDecodedCommand : Obligations.StepRunsTheDecodedCommand := by
  unfold Obligations.StepRunsTheDecodedCommand
  have hstep : ∀ (s : State) (r : Record) (rest : List HostAction) (i : Instr), s.inbox = .command r :: rest →
      decode r = .instr i → step s = exec i { s with inbox := rest } := by
    intro s r rest i hin hd
    rw [step_command hin, runRecord_instr hd]
  refine ⟨hstep, fun s r rest i hin hd => ?_, fun s nbits w i hw => ?_⟩
  · rw [decodeBytes_toBytes] at hd
    exact hstep s r rest i hin hd
  · exact hstep (s.withFetchWord nbits w) _ s.inbox i rfl (decode_ofTableWord hw)

/-- Settles O11: a step looks at what is pending first. -/
theorem idleStepChangesNothing : Obligations.IdleStepChangesNothing := by
  unfold Obligations.IdleStepChangesNothing
  intro s h
  rw [step, h]

theorem step_write {s : State} {a : Nat} {v : Byte} {rest : List HostAction} (h : s.inbox = .write a v :: rest) :
    step s = { s with inbox := rest }.hostWrite a v := by
  rw [step, h]

theorem Machine.State.hostWrite_of_lt {s : State} {a : Nat} (h : a < s.cfg.bufBytes) (v : Byte) :
    s.hostWrite a v = .next { s with buf := s.buf.write a v } := by
  rw [State.hostWrite, if_pos h]

/-- The host reads its own byte back, and the others as they were. -/
theorem Machine.State.hostRead_write (s : State) (a : Nat) (v : Byte) (b : Nat) :
    { s with buf := s.buf.write a v }.hostRead b =
      if b < s.cfg.bufBytes then some (if a = b then v else s.buf.read b) else none := by
  rw [State.hostRead, Memory.read_write]

/-- Settles O13: the byte is in `BUF` or there is none to write. -/
theorem hostWritesAreRead : Obligations.HostWritesAreRead := by
  unfold Obligations.HostWritesAreRead
  intro s a v rest hin
  rw [step_write hin]
  refine ⟨fun ha => ⟨_, State.hostWrite_of_lt (s := { s with inbox := rest }) ha v, ?_, fun b hb => ?_, rfl, rfl, rfl,
    rfl, rfl⟩, fun ha => ?_⟩
  · rw [State.hostRead_write, if_pos ha, if_pos rfl]
  · rw [State.hostRead_write, if_neg (Ne.symm hb)]
    rfl
  · exact if_neg (Nat.not_lt.2 ha)

/-! ### The invariant -/

section answered
variable {i : Instr} {s t : State}

theorem exec_keeps_cfg (h : exec i s = .next t) : t.cfg = s.cfg := by
  rcases exec_next_cases h with ⟨_, _, -, rfl⟩ | ⟨_, _, -, -, rfl⟩ | ⟨_, _, -, rfl⟩ | ⟨_, -, -, rfl⟩ |
    ⟨_, -, -, -, -, -, rfl⟩ | ⟨_, -, -, -, -, -, -, -, rfl⟩ | ⟨_, -, -, rfl⟩ <;> rfl

/-- What an answered command leaves in `BUF`: the zero-fill, the insertion, or what was there. -/
theorem exec_buf_cases (h : exec i s = .next t) :
    (∃ base cap, i = .kinit base cap true ∧ t.buf = s.buf.zeroFill base.toNat (ceil8 cap.toNat)) ∨
    (∃ u, i.isAdd = true ∧ s.k.reaches s.cfg.bufBytes i.bits ∧
      t.buf = s.buf.insert s.k.base.toNat s.k.pos.toNat u i.bits) ∨
    t.buf = s.buf := by
  rcases exec_next_cases h with ⟨_, _, -, rfl⟩ | ⟨base, cap, hi, -, rfl⟩ | ⟨_, _, -, rfl⟩ | ⟨_, -, -, rfl⟩ |
    ⟨_, -, -, -, -, -, rfl⟩ | ⟨_, hadd, -, -, -, -, -, hr, rfl⟩ | ⟨_, -, -, rfl⟩
  case inr.inl => exact .inl ⟨base, cap, hi, rfl⟩
  case inr.inr.inr.inr.inr.inl => exact .inr (.inl ⟨_, hadd, hr, rfl⟩)
  all_goals exact .inr (.inr rfl)

theorem exec_keeps_buf_wf (h : exec i s = .next t) (hwf : s.buf.wf) : t.buf.wf := by
  rcases exec_buf_cases h with ⟨base, cap, -, hbuf⟩ | ⟨u, -, -, hbuf⟩ | hbuf <;> rw [hbuf]
  · exact Memory.zeroFill_wf hwf _ _
  · exact Memory.insert_wf hwf _ _ _ _
  · exact hwf

/-- An insertion lists bytes of its footprint, which reaches no further than `BUF`. -/
theorem exec_keeps_buf_within (h : exec i s = .next t) (hin : s.buf.within s.cfg.bufBytes) :
    t.buf.within s.cfg.bufBytes := by
  rcases exec_buf_cases h with ⟨base, cap, -, hbuf⟩ | ⟨u, -, hr, hbuf⟩ | hbuf <;> rw [hbuf]
  · exact Memory.zeroFill_within hin _ _
  · exact Memory.insert_within hin hr u
  · exact hin

theorem exec_keeps_inv (h : exec i s = .next t) (hs : s.Inv) : t.Inv := by
  obtain ⟨hcfg, hp, hk, hwf, hin⟩ := hs
  obtain ⟨hp', hk'⟩ := exec_keeps_both_pos_le_cap h hp hk
  rw [State.Inv, exec_keeps_cfg h]
  exact ⟨hcfg, hp', hk', exec_keeps_buf_wf h hwf, exec_keeps_buf_within h hin⟩

/-- A byte an answered command changed is one it zero-filled, or one of the footprint of its field. -/
theorem exec_changes_byte {a : Nat} (h : exec i s = .next t) (hne : t.buf.read a ≠ s.buf.read a) :
    (i.isAdd = true ∧ inFootprint s.k.base.toNat s.k.pos.toNat i.bits a) ∨
    ∃ base cap, i = .kinit base cap true ∧ base.toNat ≤ a ∧ a < base.toNat + ceil8 cap.toNat := by
  rcases exec_buf_cases h with ⟨base, cap, hi, hbuf⟩ | ⟨u, hadd, -, hbuf⟩ | hbuf <;> rw [hbuf] at hne
  · refine .inr ⟨base, cap, hi, ?_⟩
    by_contra hout
    exact hne (by rw [Memory.read_zeroFill, if_neg hout])
  · refine .inl ⟨hadd, ?_⟩
    by_contra hout
    exact hne (Memory.read_insert_outside _ _ hout)
  · exact absurd rfl hne

end answered

theorem Machine.State.launch_inv {cfg : Config} {buf : Memory} (hcfg : cfg.wf) (hwf : buf.wf)
    (hin : buf.within cfg.bufBytes) : (State.launch cfg buf).Inv :=
  ⟨hcfg, Nat.le_refl 0, Nat.le_refl 0, hwf, hin⟩

/-- Settles O40: the cursors of a launch are 0 and its contents are the given ones; reset is a launch with none. -/
theorem invariantHoldsAtReset : Obligations.InvariantHoldsAtReset := by
  unfold Obligations.InvariantHoldsAtReset
  exact ⟨State.launch_inv (Nat.le_refl _) Memory.nil_wf fun _ hc => absurd hc List.not_mem_nil,
    fun _ _ => State.launch_inv⟩

/-- Settles O41: commands keep it by `exec_keeps_inv`, a host write is inside `BUF`, and the other steps leave `BUF` and
move no cursor up. -/
theorem everyStepKeepsTheInvariant : Obligations.EveryStepKeepsTheInvariant := by
  unfold Obligations.EveryStepKeepsTheInvariant
  intro s t hs h
  rcases step_next_cases h with ⟨-, rfl⟩ | ⟨_, _, _, -, -, hexec⟩ | ⟨_, _, _, -, -, rfl⟩ | ⟨_, -, rfl⟩ |
    ⟨a, v, _, -, ha, rfl⟩
  · exact hs
  · exact exec_keeps_inv hexec hs
  · exact hs
  · obtain ⟨hcfg, -, -, hbuf⟩ := hs
    exact ⟨hcfg, Nat.le_refl 0, Nat.le_refl 0, hbuf⟩
  · obtain ⟨hcfg, hp, hk, hwf, hin⟩ := hs
    exact ⟨hcfg, hp, hk, Memory.write_wf hwf a v, Memory.write_within hin ha v⟩

/-- Settles O56: commands keep the parameters, and so does every other step. -/
theorem parametersNeverChange : Obligations.ParametersNeverChange := by
  unfold Obligations.ParametersNeverChange
  intro s t h
  rcases step_next_cases h with ⟨-, rfl⟩ | ⟨_, _, _, -, -, hexec⟩ | ⟨_, _, _, -, -, rfl⟩ | ⟨_, -, rfl⟩ |
    ⟨_, _, _, -, -, rfl⟩
  case inr.inl => exact (exec_keeps_cfg hexec :)
  all_goals rfl

/-- Settles O54: of the steps only a host write and a command touch `BUF`, and a command writes what it zero-fills or
where its field goes. -/
theorem bytesChangeOnlyByTheseWrites : Obligations.BytesChangeOnlyByTheseWrites := by
  unfold Obligations.BytesChangeOnlyByTheseWrites
  intro s t a h hne
  rcases step_next_cases h with ⟨-, rfl⟩ | ⟨r, rest, i, hin, hd, hexec⟩ | ⟨_, _, _, -, -, rfl⟩ | ⟨_, -, rfl⟩ |
    ⟨b, v, rest, hin, -, rfl⟩
  · exact absurd rfl hne
  · exact .inr ⟨r, rest, i, hin, hd, (exec_changes_byte hexec hne :)⟩
  · exact absurd rfl hne
  · exact absurd rfl hne
  · by_cases hb : b = a
    · exact .inl ⟨v, rest, hb ▸ hin⟩
    · exact absurd (Memory.read_write_other _ _ hb) hne

end Sys2Proof

/-! PROOFS. The decoder read backwards: what a legal control word and its operands are (R51 to R55, R59), and the
assembler (R60). -/

namespace Sys2Proof
open Sys2Proof.Machine

/-! ### The operands of a command (R54) -/

/-- The command with the operands of a record, each that it uses in the place R54 gives it. -/
def Instr.withOperands (a b : Word) : Instr → Instr
  | .pinit _ _ => .pinit b a
  | .skip _ => .skip a
  | .kinit _ _ z => .kinit b a z
  | .addU8 _ n => .addU8 a n
  | .addU16 _ n => .addU16 a n
  | .addU32 _ n => .addU32 a n
  | .addU64 _ n => .addU64 a n
  | .addI8 _ n => .addI8 a n
  | .addI16 _ n => .addI16 a n
  | .addI32 _ n => .addI32 a n
  | .addI64 _ n => .addI64 a n
  | .addFloat _ => .addFloat a
  | .addDouble _ => .addDouble a
  | i => i

/-- What a control word decodes to, with other operands. -/
def Decoded.withOperands (a b : Word) : Decoded → Decoded
  | .instr i => .instr (i.withOperands a b)
  | .illegal why => .illegal why

section operands
variable (cw : BitVec 16) (a b : Word)

theorem decodeInit_withOperands : decodeInit ⟨cw, a, b⟩ = (decodeInit ⟨cw, 0, 0⟩).withOperands a b := by
  simp only [decodeInit, apply_ite (Decoded.withOperands a b)]
  rfl

theorem decodeSkip_withOperands : decodeSkip ⟨cw, a, b⟩ = (decodeSkip ⟨cw, 0, 0⟩).withOperands a b := by
  simp only [decodeSkip, apply_ite (Decoded.withOperands a b)]
  rfl

theorem decodeInteger_withOperands : decodeInteger ⟨cw, a, b⟩ = (decodeInteger ⟨cw, 0, 0⟩).withOperands a b := by
  have hunit : (Record.mk cw a b).unitK = (Record.mk cw 0 0).unitK := rfl
  have hflag : (Record.mk cw a b).flagSZ = (Record.mk cw 0 0).flagSZ := rfl
  have hsize : (Record.mk cw a b).sz = (Record.mk cw 0 0).sz := rfl
  rw [decodeInteger, decodeInteger, hunit, hflag, hsize]
  rcases Record.sz_cases ⟨cw, 0, 0⟩ with h | h | h | h
  all_goals
    rw [h]
    cases (Record.mk cw 0 0).unitK <;> cases (Record.mk cw 0 0).flagSZ <;> rfl

theorem decodeFloat_withOperands : decodeFloat ⟨cw, a, b⟩ = (decodeFloat ⟨cw, 0, 0⟩).withOperands a b := by
  have hsize : (Record.mk cw a b).sz = (Record.mk cw 0 0).sz := rfl
  rw [decodeFloat, decodeFloat, hsize]
  rcases Record.sz_cases ⟨cw, 0, 0⟩ with h | h | h | h
  all_goals
    simp only [h, apply_ite (Decoded.withOperands a b)]
    rfl

/-- The control word alone says which command it is; the operands only fill it in. -/
theorem decode_withOperands : decode ⟨cw, a, b⟩ = (decode ⟨cw, 0, 0⟩).withOperands a b := by
  have hclass : (Record.mk cw a b).cls = (Record.mk cw 0 0).cls := rfl
  rw [decode, decodeInit_withOperands, decodeSkip_withOperands, decodeInteger_withOperands, decodeFloat_withOperands,
    decode, hclass, apply_ite (Decoded.withOperands a b)]
  congr 1
  split <;> rfl

end operands

/-- A record's command is the command of its control word, filled in with its operands. -/
theorem exists_command_of_decode {r : Record} {i : Instr} (h : decode r = .instr i) :
    ∃ j : Instr, i = j.withOperands r.a r.b ∧
      ∀ r' : Record, r'.cw = r.cw → decode r' = .instr (j.withOperands r'.a r'.b) := by
  have hr := decode_withOperands r.cw r.a r.b
  cases hj : decode ⟨r.cw, 0, 0⟩ with
  | illegal why =>
    rw [hj] at hr
    exact absurd (h.symm.trans hr) nofun
  | instr j =>
    rw [hj] at hr
    refine ⟨j, Decoded.instr.inj (h.symm.trans hr), fun r' hcw => ?_⟩
    have hr' := decode_withOperands r'.cw r'.a r'.b
    rwa [hcw, hj, ← hcw] at hr'

section withOperands
variable (j : Instr) (a b : Word)

@[simp] theorem Instr.aBits_withOperands : (j.withOperands a b).aBits = j.aBits := by cases j <;> rfl

@[simp] theorem Instr.isInit_withOperands : (j.withOperands a b).isInit = j.isInit := by cases j <;> rfl

theorem encode_withOperands_a : (encode (j.withOperands a b)).a = if j.aBits = 0 then 0 else a := by cases j <;> rfl

theorem encode_withOperands_b : (encode (j.withOperands a b)).b = if j.isInit then b else 0 := by cases j <;> rfl

end withOperands

section used
variable {w : Nat} {a a' : Word} (h : a'.toNat % 2 ^ w = a.toNat % 2 ^ w)
include h

/-- An integer ADD sees the low `W` bits of `A` only (R59). -/
theorem Machine.addInteger_congr (signed : Bool) (n : Nat) (s : State) :
    addInteger signed w a' n s = addInteger signed w a n s := by
  have hlow : lowBits w a' = lowBits w a := h
  have hfield : fieldOf w n a' = fieldOf w n a := by rw [fieldOf, hlow, fieldOf]
  have hrange : rangeOK signed w n a' = rangeOK signed w n a := by
    unfold rangeOK asSigned
    rw [hlow]
  rw [addInteger, addInteger, checkAdd, checkAdd, checkRange, checkRange, hfield, hrange]

theorem Machine.addPattern_congr (s : State) : addPattern w a' s = addPattern w a s := by
  have hlow : lowBits w a' = lowBits w a := h
  rw [addPattern, hlow, addPattern]

end used

theorem word_eq_of_mod {a a' : Word} (h : a'.toNat % 2 ^ 64 = a.toNat % 2 ^ 64) : a' = a := by
  rw [Nat.mod_eq_of_lt a'.isLt, Nat.mod_eq_of_lt a.isLt] at h
  exact BitVec.eq_of_toNat_eq h

/-- The meaning of a command depends on what it uses of its operands only (R54, R59). -/
theorem exec_withOperands_congr (j : Instr) {a a' b b' : Word} (ha : a'.toNat % 2 ^ j.aBits = a.toNat % 2 ^ j.aBits)
    (hb : j.isInit = true → b' = b) (s : State) : exec (j.withOperands a' b') s = exec (j.withOperands a b) s := by
  cases j
  case pinit | kinit => rw [word_eq_of_mod ha, hb rfl]
  case skip => rw [word_eq_of_mod ha]; rfl
  case addU8 | addU16 | addU32 | addU64 | addI8 | addI16 | addI32 | addI64 => exact addInteger_congr ha _ _ s
  case addFloat | addDouble => exact addPattern_congr ha s
  all_goals rfl

/-- Settles O7: records of one control word are one command with other operands, and its meaning sees what it uses. -/
theorem unusedOperandsHaveNoEffect : Obligations.UnusedOperandsHaveNoEffect := by
  unfold Obligations.UnusedOperandsHaveNoEffect
  intro r r' i hd hcw ha hb
  obtain ⟨j, rfl, hdecode⟩ := exists_command_of_decode hd
  rw [Instr.aBits_withOperands] at ha ⊢
  rw [Instr.isInit_withOperands] at hb ⊢
  refine ⟨fun s => ?_, fun h => by rw [encode_withOperands_a, if_pos h], fun h => by simp [encode_withOperands_b, h]⟩
  rw [runRecord_instr (hdecode r' hcw), runRecord_instr hd]
  exact exec_withOperands_congr j ha hb s

/-! ### The fields of a legal control word (R51, R52) -/

/-- The class of a command. -/
def Instr.cls (i : Instr) : Nat :=
  match i.request with
  | .init => 0
  | .skip _ => 1
  | .integer _ _ _ => 2
  | .float _ => 3

/-- `S` of an integer transfer, `Z` of KINIT; 0 where there is neither. -/
def Instr.flag : Instr → Bool
  | .kinit _ _ z => z
  | i =>
    match i.request with
    | .integer signed _ _ => signed
    | _ => false

/-- The type width; 8 (`SZ` = 00) where there is none. -/
def Instr.typeWidth (i : Instr) : Nat :=
  match i.request with
  | .integer _ w _ => w
  | .float w => w
  | _ => 8

/-- The requested width of an integer transfer; 0 where there is none. -/
def Instr.requestedWidth (i : Instr) : Nat :=
  match i.request with
  | .integer _ _ n => n
  | _ => 0

/-- The fields of the record's control word are those of the command. -/
structure Record.HasFieldsOf (r : Record) (i : Instr) : Prop where
  bit11 : r.bit11 = false
  cls : r.cls = i.cls
  unitK : r.unitK = !i.isParser
  flagSZ : r.flagSZ = i.flag
  sz : 8 * 2 ^ r.sz = i.typeWidth
  nBits : r.nBits = i.requestedWidth

section fields
variable {r : Record} {i : Instr} (hb : r.bit11 = false)
include hb

theorem hasFieldsOf_of_decodeInit (hc : r.cls = 0) (h : decodeInit r = .instr i) : r.HasFieldsOf i := by
  unfold decodeInit at h
  split_ifs at h with hs hn hu hf
  all_goals
    cases h
    simp only [not_not, Bool.not_eq_true] at hs hn hu
  · exact ⟨hb, hc, hu, rfl, by rw [hs]; rfl, hn⟩
  · exact ⟨hb, hc, hu, Bool.eq_false_of_not_eq_true hf, by rw [hs]; rfl, hn⟩

theorem hasFieldsOf_of_decodeSkip (hc : r.cls = 1) (h : decodeSkip r = .instr i) : r.HasFieldsOf i := by
  unfold decodeSkip at h
  split_ifs at h with hu hf hs hn
  cases h
  simp only [not_not, Bool.not_eq_true] at hs hn hu hf
  exact ⟨hb, hc, hu, hf, by rw [hs]; rfl, hn⟩

theorem hasFieldsOf_of_decodeInteger (hc : r.cls = 2) (h : decodeInteger r = .instr i) : r.HasFieldsOf i := by
  unfold decodeInteger at h
  cases hu : r.unitK <;> cases hf : r.flagSZ <;> rcases r.sz_cases with hs | hs | hs | hs
  all_goals
    rw [hu, hf, hs] at h
    cases h
    exact ⟨hb, hc, hu, hf, by rw [hs]; rfl, rfl⟩

theorem hasFieldsOf_of_decodeFloat (hc : r.cls = 3) (h : decodeFloat r = .instr i) : r.HasFieldsOf i := by
  unfold decodeFloat at h
  rcases r.sz_cases with hs | hs | hs | hs <;> rw [hs] at h
  · split_ifs at h
  · split_ifs at h
  all_goals
    split_ifs at h with hf hn hu
  all_goals
    cases h
    simp only [not_not, Bool.not_eq_true] at hf hn hu
    exact ⟨hb, hc, hu, hf, by rw [hs]; rfl, hn⟩

end fields

theorem hasFieldsOf_of_decode {r : Record} {i : Instr} (h : decode r = .instr i) : r.HasFieldsOf i := by
  cases hb : r.bit11 with
  | true =>
    rw [decode_of_bit11 hb] at h
    cases h
  | false =>
    have hcls : r.cls = 0 ∨ r.cls = 1 ∨ r.cls = 2 ∨ r.cls = 3 ∨ 4 ≤ r.cls := by omega
    rcases hcls with hc | hc | hc | hc | hc
    · exact hasFieldsOf_of_decodeInit hb hc (decode_of_cls_init hb hc ▸ h)
    · exact hasFieldsOf_of_decodeSkip hb hc (decode_of_cls_skip hb hc ▸ h)
    · exact hasFieldsOf_of_decodeInteger hb hc (decode_of_cls_integer hb hc ▸ h)
    · exact hasFieldsOf_of_decodeFloat hb hc (decode_of_cls_float hb hc ▸ h)
    · rw [decode_of_reserved_class hb hc] at h
      cases h

theorem testBit_byte_eq_iff {x y : BitVec 8} (k : Nat) :
    x.getLsbD k = y.getLsbD k ↔ (x.toNat / 2 ^ k % 2 = 1 ↔ y.toNat / 2 ^ k % 2 = 1) := by
  rw [← BitVec.testBit_toNat, ← BitVec.testBit_toNat, Nat.testBit_eq_decide_div_mod_eq,
    Nat.testBit_eq_decide_div_mod_eq, decide_eq_decide]

/-- The five fields of the opcode byte are all of it. -/
theorem opcode_byte_eq {x y : BitVec 8} (h7 : x.getLsbD 7 = y.getLsbD 7) (hcls : x.toNat / 16 % 8 = y.toNat / 16 % 8)
    (h3 : x.getLsbD 3 = y.getLsbD 3) (h2 : x.getLsbD 2 = y.getLsbD 2) (hsz : x.toNat % 4 = y.toNat % 4) : x = y := by
  have hx := x.isLt
  have hy := y.isLt
  rw [testBit_byte_eq_iff] at h7 h3 h2
  exact BitVec.eq_of_toNat_eq (by omega)

/-- A command's fields are the whole control word: no bit is left over (R51). -/
theorem cw_eq_of_hasFieldsOf {r r' : Record} {i : Instr} (h : r.HasFieldsOf i) (h' : r'.HasFieldsOf i) :
    r.cw = r'.cw := by
  have hb := h.bit11.trans h'.bit11.symm
  have hc := h.cls.trans h'.cls.symm
  have hu := h.unitK.trans h'.unitK.symm
  have hf := h.flagSZ.trans h'.flagSZ.symm
  have hs : r.sz = r'.sz :=
    Nat.pow_right_injective (Nat.le_refl 2) (Nat.eq_of_mul_eq_mul_left (by decide) (h.sz.trans h'.sz.symm))
  have hn := h.nBits.trans h'.nBits.symm
  obtain ⟨cw, a, b⟩ := r
  obtain ⟨cw', a', b'⟩ := r'
  show cw = cw'
  rw [← append_extractLsb'_bytes cw, ← append_extractLsb'_bytes cw'] at hb hc hu hf hs hn ⊢
  rw [bit11_append, bit11_append] at hb
  rw [cls_append, cls_append] at hc
  rw [unitK_append, unitK_append] at hu
  rw [flagSZ_append, flagSZ_append] at hf
  rw [sz_append, sz_append] at hs
  rw [nBits_append, nBits_append] at hn
  rw [opcode_byte_eq hu hc hb hf hs, BitVec.eq_of_toNat_eq hn]

theorem Instr.wellFormed_iff (i : Instr) : i.wellFormed = true ↔ i.requestedWidth ≤ 255 := by
  cases i <;> simp [Instr.wellFormed, Instr.requestedWidth, Instr.request, encodableWidth]

theorem wellFormed_of_decode {r : Record} {i : Instr} (h : decode r = .instr i) : i.wellFormed = true := by
  rw [i.wellFormed_iff, ← (hasFieldsOf_of_decode h).nBits]
  exact Nat.le_of_lt_succ (BitVec.isLt _)

/-- The encoder writes back the control word a command was decoded from. -/
theorem encode_cw_of_decode {r : Record} {i : Instr} (h : decode r = .instr i) : (encode i).cw = r.cw :=
  cw_eq_of_hasFieldsOf (hasFieldsOf_of_decode (decode_encode (wellFormed_of_decode h))) (hasFieldsOf_of_decode h)

/-- Settles O2: the fields are the whole control word, and the operands are the record's where they are used. -/
theorem encodeDecodeGivesTheRecordBack : Obligations.EncodeDecodeGivesTheRecordBack := by
  unfold Obligations.EncodeDecodeGivesTheRecordBack
  intro r i h
  refine ⟨wellFormed_of_decode h, encode_cw_of_decode h, ?_⟩
  obtain ⟨j, rfl, -⟩ := exists_command_of_decode h
  rw [Instr.aBits_withOperands, Instr.isInit_withOperands]
  exact ⟨encode_withOperands_a .., encode_withOperands_b ..⟩

/-! ### The opcode table (R53) -/

theorem decode_instr_iff_not_illegal (r : Record) :
    (∃ i, decode r = .instr i) ↔ ¬∃ why, decode r = .illegal why := by
  cases decode r <;> simp

theorem tableRow_statement (i : Instr) : Laws.TableRow.Statement i := by
  cases i
  case pinit => exact Laws.TableRow.pinit ..
  case skip => exact Laws.TableRow.skip ..
  case extractU8 => exact Laws.TableRow.extractU8 ..
  case extractU16 => exact Laws.TableRow.extractU16 ..
  case extractU32 => exact Laws.TableRow.extractU32 ..
  case extractU64 => exact Laws.TableRow.extractU64 ..
  case extractI8 => exact Laws.TableRow.extractI8 ..
  case extractI16 => exact Laws.TableRow.extractI16 ..
  case extractI32 => exact Laws.TableRow.extractI32 ..
  case extractI64 => exact Laws.TableRow.extractI64 ..
  case extractFloat => exact Laws.TableRow.extractFloat
  case extractDouble => exact Laws.TableRow.extractDouble
  case kinit => exact Laws.TableRow.kinit ..
  case addU8 => exact Laws.TableRow.addU8 ..
  case addU16 => exact Laws.TableRow.addU16 ..
  case addU32 => exact Laws.TableRow.addU32 ..
  case addU64 => exact Laws.TableRow.addU64 ..
  case addI8 => exact Laws.TableRow.addI8 ..
  case addI16 => exact Laws.TableRow.addI16 ..
  case addI32 => exact Laws.TableRow.addI32 ..
  case addI64 => exact Laws.TableRow.addI64 ..
  case addFloat => exact Laws.TableRow.addFloat ..
  case addDouble => exact Laws.TableRow.addDouble ..

/-- Two rows that do not differ on a bit both of them look at are one row. -/
theorem row_eq_of_compatible : ∀ row ∈ opcodeTable, ∀ row' ∈ opcodeTable,
    row.pattern &&& row'.mask = row'.pattern &&& row.mask → row = row' := by decide

/-- No control word matches two rows. -/
theorem row_eq_of_hits {row row' : OpcodeRow} {cw : BitVec 16} (hrow : row ∈ opcodeTable) (hrow' : row' ∈ opcodeTable)
    (h : row.hits cw = true) (h' : row'.hits cw = true) : row = row' := by
  rw [OpcodeRow.hits, beq_iff_eq] at h h'
  refine row_eq_of_compatible row hrow row' hrow' ?_
  rw [← h, ← h', BitVec.and_assoc, BitVec.and_assoc, BitVec.and_comm row.mask]

/-- Settles O3: words of no row are the illegal ones, and the row of the command's mnemonic matches its word, so no
other row does. -/
theorem legalWordsAreTheOpcodeTable : Obligations.LegalWordsAreTheOpcodeTable := by
  unfold Obligations.LegalWordsAreTheOpcodeTable
  refine ⟨fun r => ?_, fun r i row hd hrow hhits => ?_, by decide, by decide⟩
  · rw [decode_instr_iff_not_illegal, decode_illegal_iff_reserved, exists_row_hits_iff_not_reserved]
  · obtain ⟨row', hrow', hname, hhits'⟩ := tableRow_statement i
    rw [encode_cw_of_decode hd] at hhits'
    rw [row_eq_of_hits hrow hrow' hhits hhits', hname]

/-- Settles O5: each word evaluated. -/
theorem wordsDecodeAsTheSpecWritesThem : Obligations.WordsDecodeAsTheSpecWritesThem := by
  unfold Obligations.WordsDecodeAsTheSpecWritesThem
  decide

/-! ### The assembler (R60) -/

theorem assemble_eq_none {i : Instr} : assemble i = none ↔ i.wellFormed = false := by
  unfold assemble
  cases i.wellFormed <;> simp

theorem decode_of_assemble {i : Instr} {r : Record} (h : assemble i = some r) : decode r = .instr i := by
  unfold assemble at h
  split at h
  · rename_i hwf
    rw [← Option.some.inj h, decode_encode hwf]
  · cases h

section value
variable {w : Nat} (hw : w ≤ 64) (z : Int)
include hw

theorem setWidth_asmValue : (asmValue w z).setWidth w = BitVec.ofInt w z := by
  rw [asmValue, BitVec.setWidth_setWidth_of_le _ hw, BitVec.setWidth_eq]

theorem asmValue_toNat_lt : (asmValue w z).toNat < 2 ^ w := by
  rw [asmValue, BitVec.toNat_setWidth_of_le hw]
  exact BitVec.isLt _

end value

/-- Settles O8: what is well-formed is encoded, and `W` bits hold every number of the signed range. -/
theorem assemblerEmitsWhatDecodes : Obligations.AssemblerEmitsWhatDecodes := by
  unfold Obligations.AssemblerEmitsWhatDecodes
  refine ⟨fun i => ⟨assemble_eq_none, fun r => decode_of_assemble⟩, fun w z hw hlow hhigh => ?_⟩
  have hle : ∀ w ∈ [8, 16, 32, 64], 0 < w ∧ w ≤ 64 := by decide
  obtain ⟨hpos, h64⟩ := hle w hw
  rw [setWidth_asmValue h64]
  exact ⟨BitVec.toInt_ofInt_eq_self hpos hlow (Int.lt_of_le_sub_one hhigh), asmValue_toNat_lt h64 z⟩

end Sys2Proof

/-! PROOFS. Which status a command answers and when it is refused (R57, R71 to R74, R87, R39, R140), and runs of
commands. -/

namespace Sys2Proof
open Sys2Proof.Machine

/-! ### The failures (R141, R142) -/

section outcomes
variable {i : Instr} {s t : State}

/-- A command fails exactly when a check does, with its status. -/
theorem exec_eq_failed_iff {st : Status} (hst : st ≠ .ok) :
    exec i s = .next (s.failed st) ↔ Instr.verdict i s = .fail st :=
  ⟨fun h => Instr.verdict_eq_fail_of_response h hst rfl, exec_eq_failed⟩

theorem exec_eq_efull_iff : exec i s = .next (s.failed .efull) ↔
    s.cfg.chkBounds = true ∧ i.isInit = false ∧ i.widthLegal = true ∧ (i.cursorOf s).remaining < i.bits := by
  rw [exec_eq_failed_iff (by decide), Instr.verdict_eq_fail]
  constructor
  · rintro (⟨-, -, hst⟩ | ⟨hi, hw, hb, hc, -⟩ | ⟨-, -, -, -, hst⟩)
    · cases hst
    · exact ⟨hc, hi, hw, hb⟩
    · cases hst
  · rintro ⟨hc, hi, hw, hb⟩
    exact .inr (.inl ⟨hi, hw, hb, hc, rfl⟩)

theorem exec_eq_einvalidArg_iff : exec i s = .next (s.failed .einvalidArg) ↔
    (s.cfg.chkWidth = true ∧ i.widthLegal = false) ∨
    (s.cfg.chkRange = true ∧ i.widthLegal = true ∧ i.bits ≤ (i.cursorOf s).remaining ∧ i.valueFits = false) := by
  rw [exec_eq_failed_iff (by decide), Instr.verdict_eq_fail]
  constructor
  · rintro (⟨hw, hc, -⟩ | ⟨-, -, -, -, hst⟩ | ⟨hw, hb, hv, hc, -⟩)
    · exact .inl ⟨hc, hw⟩
    · cases hst
    · exact .inr ⟨hc, hw, hb, hv⟩
  · rintro (⟨hc, hw⟩ | ⟨hc, hw, hb, hv⟩)
    · exact .inl ⟨hw, hc, rfl⟩
    · exact .inr (.inr ⟨hw, hb, hv, hc, rfl⟩)

/-- A value out of range, after the other checks: `EINVALID_ARG` (R73, R74). -/
theorem exec_eq_einvalidArg_of_value (hw : i.widthLegal = true) (hb : i.bits ≤ (i.cursorOf s).remaining)
    (hv : i.valueFits = false) (hc : s.cfg.chkRange = true) : exec i s = .next (s.failed .einvalidArg) :=
  exec_eq_einvalidArg_iff.2 (.inr ⟨hc, hw, hb, hv⟩)

/-- Settles O49: of the checks only the bounds check gives `EFULL`, after the width check. -/
theorem efullExactlyWhenBitsDoNotRemain : Obligations.EfullExactlyWhenBitsDoNotRemain := by
  unfold Obligations.EfullExactlyWhenBitsDoNotRemain
  exact fun _ _ => exec_eq_efull_iff

/-- Settles O50: the width check and, after the bounds check, the range check give `EINVALID_ARG`. -/
theorem einvalidExactlyWhenArgumentsAreBad : Obligations.EinvalidExactlyWhenArgumentsAreBad := by
  unfold Obligations.EinvalidExactlyWhenArgumentsAreBad
  exact fun _ _ => exec_eq_einvalidArg_iff

/-- Settles O48: of the ways a command can be answered only a completed EXTRACT gives a `RESULT` that is not the
constant 0. -/
theorem resultIsZeroUnlessExtracted : Obligations.ResultIsZeroUnlessExtracted := by
  unfold Obligations.ResultIsZeroUnlessExtracted
  intro i s t resp h hout hne
  rcases exec_next_cases h with ⟨_, _, -, rfl⟩ | ⟨_, _, -, -, rfl⟩ | ⟨_, _, -, rfl⟩ | ⟨_, -, -, rfl⟩ |
    ⟨_, hx, -, -, -, -, rfl⟩ | ⟨_, -, -, -, -, -, -, -, rfl⟩ | ⟨_, -, -, rfl⟩
  all_goals
    have hresp := List.singleton_inj.1 (List.append_cancel_left hout)
  case inr.inr.inr.inr.inl => exact ⟨(congrArg Response.status hresp).symm, hx⟩
  all_goals exact absurd (congrArg Response.result hresp).symm hne

/-! ### The refusals (R87, R39) -/

theorem Instr.effect_of_isTransfer (ht : i.isTransfer = true) : ∃ signed u,
    Instr.effect i s = if i.isParser then extractWindow signed i.bits s else insertWindow i.bits u s := by
  unfold Instr.isTransfer at ht
  unfold Instr.effect Instr.bits
  cases hr : i.request with
  | init => simp [hr] at ht
  | skip count => simp [hr] at ht
  | integer signed w n => exact ⟨signed, _, rfl⟩
  | float w => exact ⟨false, _, rfl⟩

/-- A transfer whose checks have passed is refused exactly when its footprint leaves `BUF`. -/
theorem Instr.effect_eq_refused_of_isTransfer {why : Refusal} (ht : i.isTransfer = true) :
    Instr.effect i s = .refused why ↔ ¬(i.cursorOf s).reaches s.cfg.bufBytes i.bits ∧ why = .outsideBuf := by
  obtain ⟨signed, u, heffect⟩ := Instr.effect_of_isTransfer (s := s) ht
  rw [heffect]
  cases hp : i.isParser with
  | true => rw [if_pos rfl, Instr.cursorOf_parser hp, extractWindow_eq_refused]
  | false => rw [if_neg Bool.false_ne_true, Instr.cursorOf_packer hp, insertWindow_eq_refused]

theorem zeroFillInside_iff {bufBytes : Nat} {base cap : Word} :
    zeroFillInside bufBytes base cap ↔ cap = 0 ∨ base.toNat + ceil8 cap.toNat ≤ bufBytes := by
  have hzero : ceil8 cap.toNat = 0 ↔ cap = 0 := by
    rw [← BitVec.toNat_inj, ceil8]
    show _ ↔ cap.toNat = 0
    omega
  rw [zeroFillInside, hzero]

theorem execKinit_eq_refused {base cap : Word} {z : Bool} {why : Refusal} :
    execKinit base cap z s = .refused why ↔ z = true ∧ ¬zeroFillInside s.cfg.bufBytes base cap ∧ why = .outsideBuf := by
  unfold execKinit
  split_ifs <;> simp_all [eq_comm]

theorem Instr.effect_eq_refused_of_not_isTransfer {why : Refusal} (ht : i.isTransfer = false)
    (h : Instr.effect i s = .refused why) :
    why = .outsideBuf ∧ ∃ base cap, i = .kinit base cap true ∧ ¬zeroFillInside s.cfg.bufBytes base cap := by
  rcases i.shapes with ⟨_, _, rfl⟩ | ⟨base, cap, z, rfl⟩ | ⟨_, rfl⟩ | ⟨_, _, _, hr, -⟩ | ⟨_, hr, -⟩ | ⟨_, _, _, hr, -⟩ |
    ⟨_, hr, -⟩
  · cases h
  · obtain ⟨rfl, hout, hwhy⟩ := execKinit_eq_refused.1 h
    exact ⟨hwhy, base, cap, rfl, hout⟩
  · cases h
  all_goals simp [Instr.isTransfer, hr] at ht

theorem exec_eq_refused_of_undefined {why : Refusal} (h : Instr.verdict i s = .undefined why) :
    exec i s = .refused why := by
  rw [exec_eq_guarded, h]
  rfl

/-- Settles O51: the first two are what a disabled check lets through; in the third the checks pass and the footprint
is looked at. -/
theorem undefinedCommandsAreRefused : Obligations.UndefinedCommandsAreRefused := by
  unfold Obligations.UndefinedCommandsAreRefused
  intro i s
  refine ⟨fun hc hw => ?_, fun hc hi hw hb => ?_, fun ht hw hb hv hr => ?_⟩
  · exact exec_eq_refused_of_undefined (Instr.verdict_eq_undefined.2 (.inl ⟨hw, hc, rfl⟩))
  · exact exec_eq_refused_of_undefined (Instr.verdict_eq_undefined.2 (.inr ⟨hi, hw, hb, hc, rfl⟩))
  · rw [exec_eq_guarded, Instr.verdict_eq_pass.2 (.inr ⟨hw, hb, hv⟩)]
    exact (Instr.effect_eq_refused_of_isTransfer ht).2 ⟨hr, rfl⟩

/-- Everything a command can be refused for. -/
theorem exec_refused_cases {why : Refusal} (h : exec i s = .refused why) :
    (why = .widthUnchecked ∧ s.cfg.chkWidth = false ∧ i.widthLegal = false) ∨
    (why = .boundsUnchecked ∧ s.cfg.chkBounds = false ∧ i.isInit = false ∧ (i.cursorOf s).remaining < i.bits) ∨
    (why = .outsideBuf ∧ i.isTransfer = true ∧ i.widthLegal = true ∧ i.bits ≤ (i.cursorOf s).remaining ∧
      ¬(i.cursorOf s).reaches s.cfg.bufBytes i.bits) ∨
    (why = .outsideBuf ∧ ∃ base cap, i = .kinit base cap true ∧ ¬zeroFillInside s.cfg.bufBytes base cap) := by
  rw [exec_eq_guarded] at h
  rcases guarded_eq_refused.1 h with ⟨hpass, heffect⟩ | hundef
  · cases ht : i.isTransfer with
    | true =>
      obtain ⟨hr, rfl⟩ := (Instr.effect_eq_refused_of_isTransfer ht).1 heffect
      rcases Instr.verdict_eq_pass.1 hpass with hi | ⟨hw, hb, -⟩
      · simp [Instr.isInit_of_isTransfer ht] at hi
      · exact .inr (.inr (.inl ⟨rfl, rfl, hw, hb, hr⟩))
    | false => exact .inr (.inr (.inr (Instr.effect_eq_refused_of_not_isTransfer ht heffect)))
  · rcases Instr.verdict_eq_undefined.1 hundef with ⟨hw, hc, hwhy⟩ | ⟨hi, -, hb, hc, hwhy⟩
    · exact .inl ⟨hwhy, hc, hw⟩
    · exact .inr (.inl ⟨hwhy, hc, hi, hb⟩)

/-- Settles O52: the cases of `exec_refused_cases`; a view of capacity 0 is always inside. -/
theorem onlyUndefinedCommandsAreRefused : Obligations.OnlyUndefinedCommandsAreRefused := by
  unfold Obligations.OnlyUndefinedCommandsAreRefused
  intro i s why h
  rcases exec_refused_cases h with hwidth | hbounds | ⟨hwhy, ht, -, -, hr⟩ | ⟨hwhy, base, cap, hi, hout⟩
  · exact .inl hwidth
  · exact .inr (.inl hbounds)
  · exact .inr (.inr (.inl ⟨hwhy, ht, hr⟩))
  · rw [zeroFillInside_iff, not_or, Nat.not_le] at hout
    exact .inr (.inr (.inr ⟨hwhy, base, cap, hi, hout⟩))

/-- The bytes of bits that remain of a contained view are bytes of `BUF` (R39). -/
theorem Machine.Cursor.reaches_of_contained {c : Cursor} {bufBytes n : Nat} (h : c.contained bufBytes) (hn : 1 ≤ n)
    (hb : n ≤ c.remaining) : c.reaches bufBytes n := by
  rw [Cursor.contained, ceil8] at h
  rw [Cursor.remaining] at hb
  rw [Cursor.reaches]
  omega

/-- A command that is never refused is answered: there are no faults (R140). -/
theorem answered_of_ne_refused (h : ∀ why, exec i s ≠ .refused why) : Answered (exec i s) := by
  cases hexec : exec i s with
  | next t => exact ⟨t, rfl⟩
  | fault f => exact absurd hexec (exec_ne_fault i s f)
  | refused why => exact absurd hexec (h why)

/-- Behind its checks a command on a contained view meets nothing to refuse. -/
theorem answered_of_contained (hw : s.cfg.chkWidth = true ∨ i.widthLegal = true)
    (hb : s.cfg.chkBounds = true ∨ i.isInit = true ∨ i.bits ≤ (i.cursorOf s).remaining)
    (hview : (i.cursorOf s).contained s.cfg.bufBytes)
    (hzero : ∀ base cap, i = .kinit base cap true → base.toNat + ceil8 cap.toNat ≤ s.cfg.bufBytes) :
    Answered (exec i s) := by
  refine answered_of_ne_refused fun why h => ?_
  rcases exec_refused_cases h with ⟨-, hc, hl⟩ | ⟨-, hc, hi, hlt⟩ | ⟨-, ht, hl, hle, hr⟩ | ⟨-, base, cap, hi, hout⟩
  · simp [hc, hl] at hw
  · rw [hc, hi] at hb
    have hle := (hb.resolve_left Bool.false_ne_true).resolve_left Bool.false_ne_true
    omega
  · exact hr (Cursor.reaches_of_contained hview (Instr.one_le_bits hl ht) hle)
  · exact hout (zeroFillInside_iff.2 (.inr (hzero base cap hi)))

end outcomes

/-- Settles O53: with the checks on and the views contained none of the grounds to refuse is left. -/
theorem containedViewsAreAlwaysAnswered : Obligations.ContainedViewsAreAlwaysAnswered := by
  unfold Obligations.ContainedViewsAreAlwaysAnswered
  intro i s hviews hzero
  obtain ⟨hw, hb, hp, hk⟩ := hviews
  refine answered_of_contained (.inl hw) (.inl hb) ?_ hzero
  unfold Instr.cursorOf
  split
  · exact hp
  · exact hk

/-! ### Ready and Exhausted (R16) -/

theorem Machine.Cursor.exhausted_iff {c : Cursor} : c.exhausted ↔ c.pos.toNat = c.cap.toNat := BitVec.toNat_inj.symm

theorem Machine.Cursor.remaining_of_exhausted {c : Cursor} (h : c.exhausted) : c.remaining = 0 := by
  rw [Cursor.remaining, Cursor.exhausted_iff.1 h, Nat.sub_self]

theorem Machine.Cursor.ready_or_exhausted {c : Cursor} (h : c.pos.toNat ≤ c.cap.toNat) :
    (c.ready ∨ c.exhausted) ∧ ¬(c.ready ∧ c.exhausted) ∧ (c.ready ↔ c.remaining ≠ 0) := by
  rw [Cursor.exhausted_iff, Cursor.ready, Cursor.remaining]
  omega

/-- Settles O55: `POS <= CAP` leaves the two cases; an Exhausted cursor has nothing left to ask for. -/
theorem readyOrExhausted : Obligations.ReadyOrExhausted := by
  unfold Obligations.ReadyOrExhausted
  intro s hs
  obtain ⟨-, hp, hk, -⟩ := hs
  refine ⟨fun c hc => ?_, fun i hc hi hw hb hex => ?_, exec_skip_zero s⟩
  · rw [List.mem_pair] at hc
    rcases hc with rfl | rfl
    · exact Cursor.ready_or_exhausted hp
    · exact Cursor.ready_or_exhausted hk
  · exact exec_eq_efull hi hw (by rwa [Cursor.remaining_of_exhausted hex]) hc

/-! ### Runs of commands (R42) -/

theorem Machine.execAll_cons_eq_next {i : Instr} {rest : List Instr} {s t : State} :
    execAll (i :: rest) s = .next t ↔ ∃ u, exec i s = .next u ∧ execAll rest u = .next t := by
  rw [execAll]
  cases exec i s <;> simp

/-- By how much the host moves its own count of `P.POS`, from the command and its response. -/
def acceptedWidth (x : Instr × Response) : Nat :=
  if x.1.isParser = true ∧ x.2.status = .ok then x.1.bits else 0

/-- One command that is no PINIT moves `P.POS` as the host counts. -/
theorem exec_moves_p_by_acceptedWidth {i : Instr} {s t : State} (h : exec i s = .next t)
    (hi : ∀ base cap, i ≠ .pinit base cap) :
    ∃ resp, t.outbox = s.outbox ++ [resp] ∧ t.p.pos.toNat = s.p.pos.toNat + acceptedWidth (i, resp) := by
  cases hp : i.isParser with
  | false =>
    obtain ⟨resp, hout, -⟩ := exec_responds_once h
    exact ⟨resp, hout, by simp [acceptedWidth, hp, exec_keeps_p h hp]⟩
  | true =>
    rcases exec_cursorOf_cases h with ⟨hinit, -, -⟩ | ⟨-, hb, hcur, r, hout⟩ | ⟨-, st, hst, rfl⟩
    · obtain ⟨base, cap, rfl⟩ := Instr.eq_pinit hinit hp
      exact absurd rfl (hi base cap)
    · rw [Instr.cursorOf_parser hp] at hb hcur
      rw [Instr.cursorOf_parser hp] at hcur
      exact ⟨_, hout, by simp [acceptedWidth, hp, hcur, Cursor.advance_pos_toNat _ _ hb]⟩
    · exact ⟨_, rfl, by simp [acceptedWidth, hst]⟩

theorem execAll_moves_p_by_acceptedWidths {is : List Instr} {s t : State} (h : execAll is s = .next t)
    (hi : ∀ i ∈ is, ∀ base cap, i ≠ .pinit base cap) :
    ∃ rs : List Response, rs.length = is.length ∧ t.outbox = s.outbox ++ rs ∧
      t.p.pos.toNat = s.p.pos.toNat + ((is.zip rs).map acceptedWidth).sum := by
  induction is generalizing s with
  | nil =>
    cases h
    exact ⟨[], rfl, (List.append_nil _).symm, rfl⟩
  | cons i is ih =>
    obtain ⟨u, hexec, hrest⟩ := execAll_cons_eq_next.1 h
    obtain ⟨resp, hout, hpos⟩ := exec_moves_p_by_acceptedWidth hexec (hi i List.mem_cons_self)
    obtain ⟨rs, hlen, houts, hsum⟩ := ih hrest fun j hj => hi j (List.mem_cons_of_mem _ hj)
    refine ⟨resp :: rs, congrArg (· + 1) hlen, ?_, ?_⟩
    · rw [houts, hout, List.append_assoc, List.singleton_append]
    · rw [hsum, hpos, List.zip_cons_cons, List.map_cons, List.sum_cons, Nat.add_assoc]

/-- Settles O57: by induction on the run, each command moving `P.POS` as the host counts. -/
theorem positionIsTheSumOfAcceptedWidths : Obligations.PositionIsTheSumOfAcceptedWidths := by
  unfold Obligations.PositionIsTheSumOfAcceptedWidths
  exact fun _ _ _ hi h => execAll_moves_p_by_acceptedWidths h hi

/-- A command that is to move its cursor, whose width and value no check stops. -/
def Instr.plain (i : Instr) : Prop := i.isInit = false ∧ i.widthLegal = true ∧ i.valueFits = true

/-- Such a command, for bits that remain of a contained view, is answered `OK` and moves its cursor. -/
theorem exec_ok_of_fits {i : Instr} {s : State} (hi : i.plain) (hview : (i.cursorOf s).contained s.cfg.bufBytes)
    (hb : i.bits ≤ (i.cursorOf s).remaining) :
    ∃ t r, exec i s = .next t ∧ t.outbox = s.outbox ++ [⟨.ok, r⟩] ∧ i.cursorOf t = (i.cursorOf s).advance i.bits := by
  obtain ⟨hinit, hw, hv⟩ := hi
  have hzero : ∀ base cap, i = .kinit base cap true → base.toNat + ceil8 cap.toNat ≤ s.cfg.bufBytes := by
    rintro base cap rfl
    cases hinit
  obtain ⟨t, ht⟩ := answered_of_contained (.inr hw) (.inr (.inr hb)) hview hzero
  rcases exec_cursorOf_cases ht with ⟨hinit', -, -⟩ | ⟨-, -, hcur, r, hout⟩ | ⟨-, st, hst, rfl⟩
  · simp [hinit] at hinit'
  · exact ⟨t, r, ht, hout, hcur⟩
  · have hpass := Instr.verdict_eq_pass.2 (.inr ⟨hw, hb, .inl hv⟩)
    cases hpass.symm.trans (Instr.verdict_eq_fail_of_response ht hst rfl)

theorem Machine.Cursor.remaining_advance {c : Cursor} {n : Nat} (h : n ≤ c.remaining) :
    (c.advance n).remaining = c.remaining - n := by
  rw [Cursor.remaining, Cursor.advance_pos_toNat c n h, Cursor.advance_cap, Cursor.remaining]
  omega

theorem Instr.cursorOf_congr {i j : Instr} (h : j.isParser = i.isParser) (s : State) : j.cursorOf s = i.cursorOf s := by
  rw [Instr.cursorOf, h, Instr.cursorOf]

/-- A run of such commands of one cursor that fits is answered `OK` throughout. -/
theorem execAll_ok_of_fits {before : List Instr} {i : Instr} {s : State}
    (hbefore : ∀ j ∈ before, j.isParser = i.isParser ∧ j.plain)
    (hview : (i.cursorOf s).contained s.cfg.bufBytes)
    (hb : (before.map Instr.bits).sum ≤ (i.cursorOf s).remaining) :
    ∃ u rs, execAll before s = .next u ∧ rs.length = before.length ∧ (∀ r ∈ rs, r.status = .ok) ∧
      u.outbox = s.outbox ++ rs ∧ u.cfg = s.cfg ∧
      (i.cursorOf u).remaining = (i.cursorOf s).remaining - (before.map Instr.bits).sum := by
  induction before generalizing s with
  | nil => exact ⟨s, [], rfl, rfl, nofun, (List.append_nil _).symm, rfl, rfl⟩
  | cons j rest ih =>
    rw [List.map_cons, List.sum_cons] at hb ⊢
    obtain ⟨hj, hplain⟩ := hbefore j List.mem_cons_self
    have hcur := Instr.cursorOf_congr hj
    obtain ⟨v, r, hexec, hout, hadv⟩ := exec_ok_of_fits (s := s) hplain (by rwa [hcur]) (by rw [hcur]; omega)
    have hcfg := exec_keeps_cfg hexec
    rw [hcur, hcur] at hadv
    have hrem : (i.cursorOf v).remaining = (i.cursorOf s).remaining - j.bits := by
      rw [hadv, Cursor.remaining_advance (by omega)]
    obtain ⟨u, rs, hrun, hlen, hok, houts, hcfg', hrem'⟩ := ih (s := v)
      (fun j hj => hbefore j (List.mem_cons_of_mem _ hj)) (by rw [hadv, hcfg]; exact hview) (by omega)
    refine ⟨u, ⟨.ok, r⟩ :: rs, execAll_cons_eq_next.2 ⟨v, hexec, hrun⟩, congrArg (· + 1) hlen, ?_, ?_, hcfg'.trans hcfg,
      by omega⟩
    · exact List.forall_mem_cons.2 ⟨rfl, hok⟩
    · rw [houts, hout, List.append_assoc, List.singleton_append]

/-- Settles O58: the run before fits and is answered `OK`; for the next command too few bits are left. -/
theorem firstCrossingCommandAnswersEfull : Obligations.FirstCrossingCommandAnswersEfull := by
  unfold Obligations.FirstCrossingCommandAnswersEfull
  intro before i s hc hall hview hfit hcross
  obtain ⟨-, hinit, hw, -⟩ := hall i (by simp)
  obtain ⟨u, rs, hrun, hlen, hok, hout, hcfg, hrem⟩ := execAll_ok_of_fits
    (fun j hj => hall j (List.mem_append_left _ hj)) hview hfit
  refine ⟨u, rs, hrun, hlen, hok, hout, exec_eq_efull hinit hw ?_ (hcfg ▸ hc)⟩
  rw [hrem, Cursor.remaining]
  omega

end Sys2Proof

/-! PROOFS. Bits and bytes of `BUF`: the window (R75), big-endian bytes (R32), the zero-fill (R120), the insertion and
its datapath (R80 to R83, R85, R90). -/

namespace Sys2Proof
open Sys2Proof.Machine

/-! ### The window and its footprint (R35, R75) -/

/-- A window bit stands in a byte of the footprint. -/
theorem Machine.Memory.window_eq_of_footprint {m m' : Memory} {base p n : Nat}
    (h : ∀ a, inFootprint base p n a → m'.read a = m.read a) : m'.window base p n = m.window base p n := by
  refine Memory.window_congr fun i hi => ?_
  have hbyte : inFootprint base p n (base + (p + i) / 8) := by
    rw [inFootprint]
    omega
  rw [Memory.viewBit, laneBit, Memory.viewByte, h _ hbyte, Memory.viewBit, laneBit, Memory.viewByte]

/-- Settles O21: the window value is made of its bits, which stand in the footprint. -/
theorem windowIsTheBitsOfTheStream : Obligations.WindowIsTheBitsOfTheStream := by
  unfold Obligations.WindowIsTheBitsOfTheStream
  exact fun m base p n => ⟨m.window_testBit base p n, m.window_lt base p n, fun _ => Memory.window_eq_of_footprint⟩

/-! ### Big-endian bytes (R32) -/

/-- View bits from a byte boundary on are the bits of the bytes from there on. -/
theorem Machine.Memory.viewBit_aligned (m : Memory) (base j i : Nat) :
    m.viewBit base (8 * j + i) = laneBit m.read (8 * (base + j) + i) := by
  rw [Memory.viewBit, laneBit, laneBit, Memory.viewByte,
    show base + (8 * j + i) / 8 = (8 * (base + j) + i) / 8 by omega,
    show (8 * j + i) % 8 = (8 * (base + j) + i) % 8 by omega]

theorem Machine.Memory.window_aligned (m : Memory) (base j count : Nat) :
    m.window base (8 * j) (8 * count) = m.readBE (base + j) count := by
  refine (Memory.eq_window ?_ fun i hi => ?_).symm
  · rw [Nat.pow_mul]
    exact bytesBE_lt m.read (base + j) count
  · rw [Memory.viewBit_aligned]
    exact bytesBE_testBit m.read (base + j) count i hi

theorem Machine.Memory.read_writeBE_below (m : Memory) {a b : Nat} (count v : Nat) (h : b < a) :
    (m.writeBE a count v).read b = m.read b := by
  induction count generalizing m a with
  | zero => rfl
  | succ count ih => rw [Memory.writeBE, ih _ (Nat.lt_succ_of_lt h), Memory.read_write_other _ _ (Nat.ne_of_gt h)]

/-- The bytes written are the digits of the number to the base 256. -/
theorem Machine.Memory.readBE_writeBE (m : Memory) (a count v : Nat) :
    (m.writeBE a count v).readBE a count = v % 256 ^ count := by
  induction count generalizing m a with
  | zero => simp [Memory.readBE, bytesBE, Nat.mod_one]
  | succ count ih =>
    have hfirst : (m.writeBE a (count + 1) v).read a = BitVec.ofNat 8 (v / 256 ^ count) := by
      rw [Memory.writeBE, Memory.read_writeBE_below _ _ _ (Nat.lt_succ_self a), Memory.read_write_same]
    have hrest : (m.writeBE a (count + 1) v).readBE (a + 1) count = v % 256 ^ count := ih _ (a + 1)
    rw [Memory.readBE] at hrest ⊢
    rw [bytesBE, hfirst, hrest, BitVec.toNat_ofNat, Nat.pow_succ 256 count, Nat.mod_mul, Nat.mul_comm, Nat.add_comm]

/-- Settles O23: bit by bit for the window, byte by byte for the round trip. -/
theorem alignedFieldsAreBigEndianBytes : Obligations.AlignedFieldsAreBigEndianBytes := by
  unfold Obligations.AlignedFieldsAreBigEndianBytes
  exact ⟨Memory.window_aligned, Memory.readBE_writeBE⟩

/-! ### The zero-fill (R120) -/

theorem Machine.Memory.writeBE_one_zero (m : Memory) (a : Nat) : m.writeBE a 1 0 = m.dropCells a 1 := rfl

theorem Machine.Memory.dropCells_zero (m : Memory) (a : Nat) : m.dropCells a 0 = m := by
  refine List.filter_eq_self.2 fun c _ => ?_
  simp only [Bool.not_eq_true', Bool.and_eq_false_iff, decide_eq_false_iff_not]
  omega

theorem Machine.Memory.dropCells_succ (m : Memory) (a count : Nat) :
    m.dropCells a (count + 1) = (m.dropCells a 1).dropCells (a + 1) count := by
  rw [Memory.dropCells, Memory.dropCells, Memory.dropCells, List.filter_filter]
  refine List.filter_congr fun c _ => ?_
  rw [Bool.eq_iff_iff]
  simp only [Bool.not_eq_true', Bool.and_eq_false_iff, Bool.and_eq_true, decide_eq_false_iff_not]
  omega

theorem Machine.Memory.zeroFill_eq_loop (m : Memory) (a count : Nat) : m.zeroFill a count = m.zeroFillLoop a count := by
  induction count generalizing m a with
  | zero => exact m.dropCells_zero a
  | succ count ih =>
    rw [Memory.zeroFillLoop, Memory.writeBE_one_zero, ← ih, Memory.zeroFill, Memory.zeroFill, Memory.dropCells_succ]

/-- Settles O27: writing a 0 drops the cell, so each pass of the loop drops one more. -/
theorem zeroFillIsTheLoopOfWrites : Obligations.ZeroFillIsTheLoopOfWrites := by
  unfold Obligations.ZeroFillIsTheLoopOfWrites
  exact Memory.zeroFill_eq_loop

/-! ### Insertions side by side (R80) -/

/-- Only the low `n` bits of the field are looked at. -/
theorem Machine.Memory.insert_congr (m : Memory) (base p : Nat) {u u' n : Nat}
    (h : ∀ i, i < n → u'.testBit i = u.testBit i) : m.insert base p u' n = m.insert base p u n := by
  induction n generalizing m p with
  | zero => rfl
  | succ n ih =>
    rw [Memory.insert_succ, Memory.insert_succ, h n (Nat.lt_succ_self n), ih _ _ fun i hi => h i (Nat.lt_succ_of_lt hi)]

/-- A field is inserted by inserting its high bits and then its low bits behind them. -/
theorem Machine.Memory.insert_add (m : Memory) (base p u k n : Nat) :
    m.insert base p u (k + n) = (m.insert base p (u >>> n) k).insert base (p + k) u n := by
  induction k generalizing m p with
  | zero => simp
  | succ k ih =>
    rw [Nat.add_right_comm, Memory.insert_succ, Memory.insert_succ, ih, Nat.testBit_shiftRight, Nat.add_comm n k,
      Nat.add_right_comm p 1 k, Nat.add_assoc p k 1]

/-- OR-ing twice is OR-ing once. -/
theorem Machine.Memory.insert_insert {m : Memory} (hwf : m.wf) (base p u n : Nat) :
    (m.insert base p u n).insert base p u n = m.insert base p u n := by
  have hwf' := Memory.insert_wf hwf base p u n
  refine Memory.ext_read (Memory.insert_wf hwf' base p u n) hwf' fun a => BitVec.eq_of_getLsbD_eq fun j hj => ?_
  rw [Memory.getLsbD_read_insert _ _ _ _ _ _ _ hj, Memory.getLsbD_read_insert _ _ _ _ _ _ _ hj, Bool.or_assoc,
    Bool.or_self]

/-- Settles O36: each bit is OR-ed with what it already has. -/
theorem insertTwiceIsInsertOnce : Obligations.InsertTwiceIsInsertOnce := by
  unfold Obligations.InsertTwiceIsInsertOnce
  exact fun _ base p u n hwf => Memory.insert_insert hwf base p u n

/-! ### The chunk splice (R81) -/

/-- OR-ing into a byte of a view ORs eight stream bits. -/
theorem Machine.Memory.viewBit_orByte (m : Memory) (base q k : Nat) (y : Byte) :
    (m.orByte (base + q) y).viewBit base k = (m.viewBit base k || (decide (k / 8 = q) && y.getLsbD (7 - k % 8))) := by
  rw [Memory.viewBit, laneBit, Memory.viewByte, Memory.read_orByte, Memory.viewBit, laneBit, Memory.viewByte]
  by_cases hq : k / 8 = q
  · rw [hq, if_pos rfl, BitVec.getLsbD_or, decide_eq_true rfl, Bool.true_and]
  · rw [if_neg (by omega), decide_eq_false hq, Bool.false_and, Bool.or_false]

theorem testBit_eq_false_of_le {x m j : Nat} (hx : x < 2 ^ m) (hj : m ≤ j) : x.testBit j = false :=
  Nat.testBit_eq_false_of_lt (Nat.lt_of_lt_of_le hx (Nat.pow_le_pow_right Nat.two_pos hj))

theorem testBit_mod_two_pow_of_lt (x : Nat) {n i : Nat} (hi : i < n) : (x % 2 ^ n).testBit i = x.testBit i := by
  rw [Nat.testBit_mod_two_pow, decide_eq_true hi, Bool.true_and]

theorem shiftRight_lt_two_pow {x k n : Nat} (h : x < 2 ^ (k + n)) : x >>> n < 2 ^ k := by
  rw [Nat.shiftRight_eq_div_pow]
  exact Nat.div_lt_of_lt_mul (by rwa [← Nat.pow_add, Nat.add_comm])

/-- A chunk that ends in its first byte, shifted up to where it stands, does to any stream bit what the insertion of its
bits does. -/
theorem Machine.Memory.viewBit_orByte_chunk (mem : Memory) (base k : Nat) {it m x : Nat} (hx : x < 2 ^ m)
    (hfree : m ≤ 8 - it % 8) :
    (mem.orByte (base + it / 8) (BitVec.ofNat 8 (x <<< (8 - it % 8 - m)))).viewBit base k =
      (mem.insert base it x m).viewBit base k := by
  rw [Memory.viewBit_insert, Memory.viewBit_orByte, BitVec.getLsbD_ofNat, Nat.testBit_shiftLeft,
    decide_eq_true (show 7 - k % 8 < 8 by omega), Bool.true_and]
  congr 1
  by_cases hin : it ≤ k ∧ k < it + m
  · rw [decide_eq_true hin, decide_eq_true (show k / 8 = it / 8 by omega),
      decide_eq_true (show 7 - k % 8 ≥ 8 - it % 8 - m by omega), Bool.true_and, Bool.true_and, Bool.true_and,
      show 7 - k % 8 - (8 - it % 8 - m) = it + m - 1 - k by omega]
  · rw [decide_eq_false hin, Bool.false_and, Bool.and_eq_false_iff, Bool.and_eq_false_iff, decide_eq_false_iff_not,
      decide_eq_false_iff_not]
    by_cases hbyte : k / 8 = it / 8 ∧ 7 - k % 8 ≥ 8 - it % 8 - m
    · exact .inr (.inr (testBit_eq_false_of_le hx (by omega)))
    · omega

/-- A chunk that spills is a chunk up to the end of its first byte and one at the head of the next. -/
theorem Machine.Memory.putBits_of_spill (mem : Memory) (base it x : Nat) {spill : Nat} (h : 0 < spill)
    (h8 : 8 - it % 8 + spill ≤ 8) :
    (mem.putBits base it x (8 - it % 8 + spill)).1 =
      (mem.orByte (base + it / 8) (BitVec.ofNat 8 ((x >>> spill) <<< (8 - it % 8 - (8 - it % 8))))).orByte
        (base + (it + (8 - it % 8)) / 8)
        (BitVec.ofNat 8 ((x % 2 ^ spill) <<< (8 - (it + (8 - it % 8)) % 8 - spill))) := by
  have hcut : (x <<< (8 - spill)) % 256 = (x % 2 ^ spill) <<< (8 - spill) := by
    have hpow : 256 = 2 ^ spill * 2 ^ (8 - spill) := by
      rw [← Nat.pow_add, show spill + (8 - spill) = 8 by omega]
    rw [Nat.shiftLeft_eq, Nat.shiftLeft_eq, hpow, Nat.mul_mod_mul_right]
  unfold Memory.putBits
  dsimp only
  rw [if_pos (by omega), Nat.add_sub_cancel_left, hcut, Nat.sub_self, Nat.shiftLeft_zero,
    show base + it / 8 + 1 = base + (it + (8 - it % 8)) / 8 by omega, show (it + (8 - it % 8)) % 8 = 0 by omega,
    Nat.sub_zero]

/-- A spliced chunk does to any stream bit what the insertion of its bits does. -/
theorem Machine.Memory.viewBit_putBits (mem : Memory) (base it k : Nat) {x m : Nat} (hm : m ≤ 8) (hx : x < 2 ^ m) :
    (mem.putBits base it x m).1.viewBit base k = (mem.insert base it x m).viewBit base k := by
  by_cases h : 8 - it % 8 < m
  · obtain ⟨spill, rfl⟩ := Nat.exists_eq_add_of_le (Nat.le_of_lt h)
    have hlow : x % 2 ^ spill < 2 ^ spill := Nat.mod_lt _ (Nat.two_pow_pos _)
    rw [Memory.putBits_of_spill _ _ _ _ (by omega) hm, Memory.viewBit_orByte_chunk _ _ _ hlow (by omega),
      Memory.viewBit_insert, Memory.viewBit_orByte_chunk _ _ _ (shiftRight_lt_two_pow hx) (Nat.le_refl _),
      ← Memory.viewBit_insert, Memory.insert_congr _ _ _ fun _ => testBit_mod_two_pow_of_lt x, ← Memory.insert_add]
  · unfold Memory.putBits
    dsimp only
    rw [if_neg h]
    exact Memory.viewBit_orByte_chunk mem base k hx (Nat.le_of_not_lt h)

theorem Machine.Memory.putBits_iterator (mem : Memory) (base it x m : Nat) : (mem.putBits base it x m).2 = it + m := by
  unfold Memory.putBits
  dsimp only
  split <;> rfl

theorem Machine.Memory.read_putBits_below (mem : Memory) {base a : Nat} (it x m : Nat) (h : a < base) :
    (mem.putBits base it x m).1.read a = mem.read a := by
  unfold Memory.putBits
  dsimp only
  split
  · rw [Memory.read_orByte_other _ _ (by omega), Memory.read_orByte_other _ _ (by omega)]
  · rw [Memory.read_orByte_other _ _ (by omega)]

/-- Settles O35: the bits of the chunk in one byte, or in two; no other bit of the stream and no byte below it. -/
theorem chunkSpliceOrsTheChunk : Obligations.ChunkSpliceOrsTheChunk := by
  unfold Obligations.ChunkSpliceOrsTheChunk
  intro mem base it x m _ hm hx
  refine ⟨mem.putBits_iterator base it x m, fun i hi => ?_, fun k hk => ?_,
    fun a ha => mem.read_putBits_below it x m ha⟩
  · rw [Memory.viewBit_putBits _ _ _ _ hm hx, Memory.viewBit_insert_inside _ _ _ _ hi]
  · rw [Memory.viewBit_putBits _ _ _ _ hm hx, Memory.viewBit_insert_outside _ _ hk]

/-! ### The insertion datapath (R82, R83) -/

/-- Memories in canonical form with the same view and the same bytes below it are the same. -/
theorem Machine.Memory.ext_view {m m' : Memory} (base : Nat) (hwf : m.wf) (hwf' : m'.wf)
    (hbelow : ∀ a, a < base → m.read a = m'.read a) (hview : ∀ k, m.viewBit base k = m'.viewBit base k) : m = m' := by
  refine Memory.ext_read hwf hwf' fun a => ?_
  rcases Nat.lt_or_ge a base with ha | ha
  · exact hbelow a ha
  · obtain ⟨q, rfl⟩ := Nat.exists_eq_add_of_le ha
    refine BitVec.eq_of_getLsbD_eq fun j hj => ?_
    have h := hview (8 * q + (7 - j))
    rwa [Memory.viewBit, laneBit, Memory.viewByte, Memory.viewBit, laneBit, Memory.viewByte,
      show (8 * q + (7 - j)) / 8 = q by omega, show 7 - (8 * q + (7 - j)) % 8 = j by omega] at h

/-- A spliced chunk is the insertion of its bits. -/
theorem Machine.Memory.putBits_eq_insert {mem : Memory} (hwf : mem.wf) (base it : Nat) {x m : Nat} (hm : m ≤ 8)
    (hx : x < 2 ^ m) : mem.putBits base it x m = (mem.insert base it x m, it + m) := by
  refine Prod.ext ?_ (mem.putBits_iterator base it x m)
  refine Memory.ext_view base (Memory.putBits_wf hwf base it x m) (Memory.insert_wf hwf base it x m) (fun a ha => ?_)
    fun k => Memory.viewBit_putBits mem base it k hm hx
  have hbelow : ¬inFootprint base it m a := by omega
  rw [mem.read_putBits_below it x m ha, Memory.read_insert_outside _ _ hbelow]

/-- Full bytes spliced one after the other are the insertion of all their bits. -/
theorem Machine.Memory.putBytes_eq_insert {mem : Memory} (hwf : mem.wf) (base it u q : Nat) :
    mem.putBytes base it u q = (mem.insert base it u (8 * q), it + 8 * q) := by
  induction q generalizing mem it with
  | zero => rfl
  | succ q ih =>
    have hbyte : ∀ i, i < 8 → ((u >>> (8 * q)) % 256).testBit i = (u >>> (8 * q)).testBit i :=
      fun _ => testBit_mod_two_pow_of_lt (u >>> (8 * q))
    have hlt : (u >>> (8 * q)) % 256 < 2 ^ 8 := Nat.mod_lt _ (by decide)
    rw [Memory.putBytes, Memory.putBits_eq_insert hwf base it (Nat.le_refl 8) hlt]
    dsimp only
    rw [ih (Memory.insert_wf hwf _ _ _ _), Memory.insert_congr mem base it hbyte, ← Memory.insert_add,
      show 8 + 8 * q = 8 * (q + 1) by omega, Nat.add_assoc, show 8 + 8 * q = 8 * (q + 1) by omega]

theorem Machine.Memory.insertChunks_eq_insert {mem : Memory} (hwf : mem.wf) (base p : Nat) {u n : Nat}
    (hu : u < 2 ^ n) : mem.insertChunks base p u n = (mem.insert base p u n, p + n) := by
  have hsplit : n % 8 + 8 * (n / 8) = n := Nat.mod_add_div n 8
  have hhead : u >>> (8 * (n / 8)) < 2 ^ (n % 8) := shiftRight_lt_two_pow (by rwa [hsplit])
  have hfirst : (if n % 8 > 0 then mem.putBits base p (u >>> (8 * (n / 8))) (n % 8) else (mem, p)) =
      (mem.insert base p (u >>> (8 * (n / 8))) (n % 8), p + n % 8) := by
    split
    · exact Memory.putBits_eq_insert hwf base p (by omega) hhead
    · rw [show n % 8 = 0 by omega]
      rfl
  unfold Memory.insertChunks
  dsimp only
  rw [hfirst]
  dsimp only
  rw [Memory.putBytes_eq_insert (Memory.insert_wf hwf _ _ _ _), ← Memory.insert_add, hsplit, Nat.add_assoc, hsplit]

/-- Settles O34: each chunk is the insertion of its bits, and insertions side by side are one. -/
theorem insertionDatapathIsTheInsert : Obligations.InsertionDatapathIsTheInsert := by
  unfold Obligations.InsertionDatapathIsTheInsert
  exact fun _ base p _ _ hwf _ _ hu => Memory.insertChunks_eq_insert hwf base p hu

/-! ### The window after an insertion (R85, R90) -/

theorem Machine.Memory.window_insert (m : Memory) (base p : Nat) {u n : Nat} (hu : u < 2 ^ n) :
    (m.insert base p u n).window base p n = m.window base p n ||| u := by
  refine (Memory.eq_window (Nat.or_lt_two_pow (m.window_lt base p n) hu) fun i hi => ?_).symm
  rw [Nat.testBit_or, m.window_testBit base p n i hi, Memory.viewBit_insert_inside m base p u hi]

theorem Machine.Memory.window_insert_of_zero {m : Memory} {base p u n : Nat} (hu : u < 2 ^ n)
    (hzero : m.window base p n = 0) : (m.insert base p u n).window base p n = u := by
  rw [m.window_insert base p hu, hzero, Nat.zero_or]

/-- The `n`-bit pattern of a number in range reads back as the number (R8, R73). -/
theorem Machine.sext_of_emod {u n : Nat} {z : Int} (hn : 1 ≤ n) (hlow : -(2 ^ (n - 1) : Int) ≤ z)
    (hhigh : z ≤ 2 ^ (n - 1) - 1) (hu : (u : Int) = z % 2 ^ n) : sext n u = z := by
  have hpow : ((2 ^ n : Nat) : Int) = 2 ^ n := by norm_cast
  have hlt : u < 2 ^ n := by
    have := Int.emod_lt_of_pos z (show (0 : Int) < 2 ^ n by positivity)
    omega
  have hpattern : BitVec.ofNat n u = BitVec.ofInt n z := by
    refine BitVec.eq_of_toNat_eq ?_
    rw [BitVec.toNat_ofNat, BitVec.toNat_ofInt, Nat.mod_eq_of_lt hlt, hpow, ← hu, Int.toNat_natCast]
  rw [sext_eq_toInt hlt, hpattern, BitVec.toInt_ofInt_eq_self hn hlow (Int.lt_of_le_sub_one hhigh)]

/-- Settles O38: bit by bit an OR, with nothing there the field itself, whose sign extension is the number it
encodes. -/
theorem windowAfterInsertIsOldOrNew : Obligations.WindowAfterInsertIsOldOrNew := by
  unfold Obligations.WindowAfterInsertIsOldOrNew
  refine fun m base p u n hu => ⟨m.window_insert base p hu, Memory.window_insert_of_zero hu, ?_⟩
  intro hzero z hn hlow hhigh hz
  rw [Memory.window_insert_of_zero hu hzero]
  exact sext_of_emod hn hlow hhigh hz

end Sys2Proof

/-! PROOFS. What the commands move: the EXTRACTs that fail or move a pattern (R74, R88), KINIT (R120), the ADDs with
their range check (R73, R80, R89), and the round trip (R90). -/

namespace Sys2Proof
open Sys2Proof.Machine Sys2Proof.Claims

/-! ### The members of the lists of transfers -/

theorem floatExtracts_request {w : Nat} {i : Instr} (h : (w, i) ∈ floatExtracts) :
    i.request = .float w ∧ i.isParser = true := by
  simp only [floatExtracts, List.mem_cons, Prod.mk.injEq, List.not_mem_nil, or_false] at h
  rcases h with ⟨rfl, rfl⟩ | ⟨rfl, rfl⟩ <;> exact ⟨rfl, rfl⟩

theorem unsignedAdds_request {w : Nat} {mk : Word → Nat → Instr} (h : (w, mk) ∈ unsignedAdds) (value : Word) (n : Nat) :
    (mk value n).request = .integer false w n ∧ (mk value n).isParser = false ∧ (mk value n).addend = value := by
  simp only [unsignedAdds, List.mem_cons, Prod.mk.injEq, List.not_mem_nil, or_false] at h
  rcases h with ⟨rfl, rfl⟩ | ⟨rfl, rfl⟩ | ⟨rfl, rfl⟩ | ⟨rfl, rfl⟩ <;> exact ⟨rfl, rfl, rfl⟩

theorem signedAdds_request {w : Nat} {mk : Word → Nat → Instr} (h : (w, mk) ∈ signedAdds) (value : Word) (n : Nat) :
    (mk value n).request = .integer true w n ∧ (mk value n).isParser = false ∧ (mk value n).addend = value := by
  simp only [signedAdds, List.mem_cons, Prod.mk.injEq, List.not_mem_nil, or_false] at h
  rcases h with ⟨rfl, rfl⟩ | ⟨rfl, rfl⟩ | ⟨rfl, rfl⟩ | ⟨rfl, rfl⟩ <;> exact ⟨rfl, rfl, rfl⟩

theorem floatAdds_request {w : Nat} {mk : Word → Instr} (h : (w, mk) ∈ floatAdds) (pattern : Word) :
    (mk pattern).request = .float w ∧ (mk pattern).isParser = false ∧ (mk pattern).addend = pattern := by
  simp only [floatAdds, List.mem_cons, Prod.mk.injEq, List.not_mem_nil, or_false] at h
  rcases h with ⟨rfl, rfl⟩ | ⟨rfl, rfl⟩ <;> exact ⟨rfl, rfl, rfl⟩

theorem Instr.float_width_le {i : Instr} {w : Nat} (hr : i.request = .float w) : w ≤ 64 := by
  rcases Instr.float_width hr with rfl | rfl <;> decide

/-! ### How a transfer fails (R72, R71, R74) -/

section failing
variable {i : Instr} {s : State} {signed : Bool} {w n : Nat}

/-- An integer transfer of illegal width. -/
theorem exec_integer_width (hr : i.request = .integer signed w n) (hn : ¬(1 ≤ n ∧ n ≤ w)) (hc : s.cfg.chkWidth = true) :
    exec i s = .next (s.failed .einvalidArg) := by
  have hw : i.widthLegal = false := by rwa [← Bool.not_eq_true, Instr.widthLegal_integer hr]
  exact exec_eq_einvalidArg_of_width hw hc

/-- An integer transfer of legal width for more bits than remain. -/
theorem exec_integer_bounds (hr : i.request = .integer signed w n) (hn : 1 ≤ n ∧ n ≤ w)
    (hb : (i.cursorOf s).remaining < n) (hc : s.cfg.chkBounds = true) : exec i s = .next (s.failed .efull) :=
  exec_eq_efull (Instr.isInit_integer hr) ((Instr.widthLegal_integer hr).2 hn) (by rwa [Instr.bits_integer hr]) hc

/-- A float transfer for more bits than remain. -/
theorem exec_float_bounds (hr : i.request = .float w) (hb : (i.cursorOf s).remaining < w)
    (hc : s.cfg.chkBounds = true) : exec i s = .next (s.failed .efull) :=
  exec_eq_efull (Instr.isInit_float hr) (Instr.widthLegal_float hr) (by rwa [Instr.bits_float hr]) hc

/-- A float transfer has no width and no value to be bad. -/
theorem exec_float_ne_einvalidArg (hr : i.request = .float w) : exec i s ≠ .next (s.failed .einvalidArg) := by
  rw [Ne, exec_eq_einvalidArg_iff, Instr.widthLegal_float hr, Instr.valueFits_float hr]
  simp

end failing

/-- Settles O20: the failures of a transfer, on the parser's cursor. -/
theorem extractsFailInOrder : Obligations.ExtractsFailInOrder := by
  unfold Obligations.ExtractsFailInOrder
  refine ⟨fun w mk hmk s n => ?_, fun w i hi s => ?_⟩
  · have hreq : ∃ signed, (mk n).request = .integer signed w n ∧ (mk n).isParser = true := by
      rcases List.mem_append.1 hmk with h | h
      · exact ⟨false, unsignedExtracts_request h n⟩
      · exact ⟨true, signedExtracts_request h n⟩
    obtain ⟨signed, hr, hp⟩ := hreq
    rw [← Instr.cursorOf_parser hp s]
    exact ⟨exec_integer_width hr, exec_integer_bounds hr⟩
  · obtain ⟨hr, hp⟩ := floatExtracts_request hi
    rw [← Instr.cursorOf_parser hp s]
    exact ⟨exec_float_bounds hr, exec_float_ne_einvalidArg hr⟩

/-! ### What the parser's commands read (R35, R88) -/

/-- An integer EXTRACT of a field that can be moved is its window. -/
theorem exec_extractInteger_eq_extractWindow {i : Instr} {signed : Bool} {w n : Nat} {s : State}
    (hr : i.request = .integer signed w n) (hp : i.isParser = true) (hw : 1 ≤ n ∧ n ≤ w) (hb : n ≤ s.p.remaining) :
    exec i s = extractWindow signed n s := by
  rw [exec_extractInteger hr hp, extractInteger, checkExtract_eq_pass.2 ⟨hw, hb⟩]
  rfl

theorem exec_extractPattern_eq_extractWindow {i : Instr} {w : Nat} {s : State} (hr : i.request = .float w)
    (hp : i.isParser = true) (hb : w ≤ s.p.remaining) : exec i s = extractWindow false w s := by
  rw [exec_extractPattern hr hp, extractPattern, checkBounds_eq_pass.2 hb]
  rfl

theorem exec_extractPattern_answered {i : Instr} {w : Nat} {s : State} (hi : i.request = .float w ∧ i.isParser = true)
    (hc : canTransfer s.cfg s.p w w) :
    ∃ t, exec i s = .next t ∧
      ParserAnswered s t w (resultOf false w (s.buf.window s.p.base.toNat s.p.pos.toNat w)) := by
  obtain ⟨-, hn, hr⟩ := hc
  rw [exec_extractPattern_eq_extractWindow hi.1 hi.2 hn]
  exact extractWindow_answered hn hr

/-- Settles O19: the command answers its window, zero-extended. -/
theorem floatExtractsMoveThePattern : Obligations.FloatExtractsMoveThePattern := by
  unfold Obligations.FloatExtractsMoveThePattern
  intro w i hi s hc
  have hreq := floatExtracts_request hi
  have hw : w ≤ 64 := Instr.float_width_le hreq.1
  have hlt := s.buf.window_lt s.p.base.toNat s.p.pos.toNat w
  obtain ⟨t, ht, hans⟩ := exec_extractPattern_answered hreq hc
  refine ⟨t, _, ht, hans, fun j hj => ?_, fun j hj => ?_⟩
  · rw [resultOf_unsigned_getLsbD hw hlt, Memory.window_testBit _ _ _ _ _ hj]
  · rw [resultOf_unsigned_getLsbD hw hlt]
    exact testBit_eq_false_of_le hlt hj

theorem extractWindow_withBuf (signed : Bool) {n : Nat} {s : State} {b : Memory}
    (h : ∀ a, inFootprint s.p.base.toNat s.p.pos.toNat n a → b.read a = s.buf.read a) :
    extractWindow signed n { s with buf := b } =
      mapState (fun t => { t with buf := b }) (extractWindow signed n s) := by
  unfold extractWindow
  by_cases hr : s.p.reaches s.cfg.bufBytes n
  · rw [if_pos hr, if_pos hr]
    dsimp only
    rw [Memory.window_eq_of_footprint h]
    rfl
  · rw [if_neg hr, if_neg hr]
    rfl

/-- Settles O24: the checks do not look at `BUF`, and a window is read from its footprint. -/
theorem parserReadsOnlyTheFootprint : Obligations.ParserReadsOnlyTheFootprint := by
  unfold Obligations.ParserReadsOnlyTheFootprint
  intro i s b hp h
  have hx : i.isTransfer = true → i.isExtract = true := by
    intro ht
    rw [Instr.isExtract_eq, ht, hp, Bool.and_true]
  rcases i.shapes with ⟨_, _, rfl⟩ | ⟨_, _, _, rfl⟩ | ⟨_, rfl⟩ | ⟨_, _, _, hr, -⟩ | ⟨_, hr, -⟩ | ⟨_, _, _, -, hk⟩ |
    ⟨_, -, hk⟩
  · rfl
  · cases hp
  · exact guarded_mapState (f := fun t => { t with buf := b }) (fun _ => rfl) rfl
  · have hfoot := h (hx (Instr.isTransfer_integer hr))
    rw [Instr.bits_integer hr] at hfoot
    rw [exec_extractInteger hr hp, exec_extractInteger hr hp]
    exact guarded_mapState (fun _ => rfl) (extractWindow_withBuf _ hfoot)
  · have hfoot := h (hx (Instr.isTransfer_float hr))
    rw [Instr.bits_float hr] at hfoot
    rw [exec_extractPattern hr hp, exec_extractPattern hr hp]
    exact guarded_mapState (fun _ => rfl) (extractWindow_withBuf _ hfoot)
  · simp [hp] at hk
  · simp [hp] at hk

/-! ### KINIT (R120) -/

/-- Settles O26: with `z` the zero-fill runs when it stays inside `BUF`; the cursor is bound either way. -/
theorem kinitBindsAndZeroFills : Obligations.KinitBindsAndZeroFills := by
  unfold Obligations.KinitBindsAndZeroFills
  intro s base cap
  refine ⟨decode_kinit base cap false, decode_kinit base cap true, rfl, fun hin => ?_, fun hcap hout => ?_⟩
  · refine ⟨_, if_pos (zeroFillInside_iff.2 hin), rfl, rfl, rfl, rfl, rfl, fun a hlow hhigh => ?_, fun a ha => ?_⟩
    · exact (Memory.read_zeroFill ..).trans (if_pos ⟨hlow, hhigh⟩)
    · exact (Memory.read_zeroFill ..).trans (if_neg ha)
  · refine execKinit_eq_refused.2 ⟨rfl, ?_, rfl⟩
    rw [zeroFillInside_iff, not_or, Nat.not_le]
    exact ⟨hcap, hout⟩

/-! ### The range check (R73) -/

theorem Machine.lowBits_eq (w : Nat) (a : Word) : lowBits w a = (a.setWidth w).toNat := (BitVec.toNat_setWidth w a).symm

theorem Machine.asSigned_eq (w : Nat) (a : Word) : asSigned w a = (a.setWidth w).toInt := by
  rw [asSigned, lowBits_eq, sext_eq_toInt (BitVec.isLt _), BitVec.ofNat_toNat, BitVec.setWidth_eq]

theorem Machine.rangeOK_unsigned_iff {w n : Nat} {a : Word} : rangeOK false w n a = true ↔ unsignedInRange w n a := by
  rw [unsignedInRange, ← lowBits_eq]
  exact decide_eq_true_iff

theorem Machine.rangeOK_signed_iff {w n : Nat} {a : Word} : rangeOK true w n a = true ↔ signedInRange w n a := by
  rw [signedInRange, ← asSigned_eq, rangeOK, if_pos rfl, Bool.and_eq_true, decide_eq_true_iff, decide_eq_true_iff]

section bitTests
variable {w n : Nat}

/-- A number below `2^n` has no bit from `n` up. -/
theorem toNat_lt_two_pow_iff (x : BitVec w) (n : Nat) :
    x.toNat < 2 ^ n ↔ ∀ i, n ≤ i → i < w → x.getLsbD i = false := by
  constructor
  · intro h i hi _
    rw [← BitVec.testBit_toNat]
    exact testBit_eq_false_of_le h hi
  · intro h
    refine Nat.lt_pow_two_of_testBit _ fun i hi => ?_
    rw [BitVec.testBit_toNat]
    by_cases hw : i < w
    · exact h i hi hw
    · exact BitVec.getLsbD_of_ge x i (Nat.le_of_not_lt hw)

theorem getLsbD_setWidth_of_lt {i : Nat} (a : Word) (h : i < w) : (a.setWidth w).getLsbD i = a.getLsbD i := by
  rw [BitVec.getLsbD_setWidth, decide_eq_true h, Bool.true_and]

theorem unsignedInRange_iff_bits (a : Word) :
    unsignedInRange w n a ↔ ∀ i, n ≤ i → i < w → a.getLsbD i = false := by
  rw [unsignedInRange, Nat.le_sub_one_iff_lt (Nat.two_pow_pos n), toNat_lt_two_pow_iff]
  exact forall_congr' fun i => forall_congr' fun _ => forall_congr' fun hw => by rw [getLsbD_setWidth_of_lt a hw]

/-- A signed number fits `n` bits when its bits from the sign of those `n` on are its own sign: a number that is not
negative because it is below `2^(n-1)`, a negative one because its complement is. -/
theorem toInt_in_range_iff_bits (x : BitVec w) :
    (-(2 ^ (n - 1) : Int) ≤ x.toInt ∧ x.toInt ≤ 2 ^ (n - 1) - 1) ↔
      ∀ i, n - 1 ≤ i → i < w → x.getLsbD i = x.getLsbD (w - 1) := by
  have hpow : ((2 ^ (n - 1) : Nat) : Int) = 2 ^ (n - 1) := by norm_cast
  have hlt := x.isLt
  rw [BitVec.toInt_eq_msb_cond, BitVec.msb_eq_getLsbD_last]
  cases hs : x.getLsbD (w - 1) with
  | false =>
    rw [← toNat_lt_two_pow_iff, if_neg Bool.false_ne_true]
    omega
  | true =>
    have hnot : (∀ i, n - 1 ≤ i → i < w → x.getLsbD i = true) ↔ (~~~x).toNat < 2 ^ (n - 1) := by
      rw [toNat_lt_two_pow_iff]
      refine forall_congr' fun i => forall_congr' fun _ => forall_congr' fun hw => ?_
      rw [BitVec.getLsbD_not, decide_eq_true hw, Bool.true_and, Bool.not_eq_false']
    have hwpow : ((2 ^ w : Nat) : Int) = 2 ^ w := by norm_cast
    rw [hnot, BitVec.toNat_not, if_pos rfl]
    omega

theorem signedInRange_iff_bits (a : Word) :
    signedInRange w n a ↔ ∀ i, n - 1 ≤ i → i < w → a.getLsbD i = a.getLsbD (w - 1) := by
  rw [signedInRange, toInt_in_range_iff_bits]
  refine forall_congr' fun i => forall_congr' fun _ => forall_congr' fun hw => ?_
  rw [getLsbD_setWidth_of_lt a hw, getLsbD_setWidth_of_lt a (by omega)]

end bitTests

/-- Settles O32: the intervals are those of the numbers whose upper bits agree; with `n = W` there are no such bits but
the sign. -/
theorem rangeCheckIsTheBitTest : Obligations.RangeCheckIsTheBitTest := by
  unfold Obligations.RangeCheckIsTheBitTest
  intro w n a _ _ _
  refine ⟨rangeOK_unsigned_iff, rangeOK_signed_iff, rangeOK_unsigned_iff.trans (unsignedInRange_iff_bits a),
    rangeOK_signed_iff.trans (signedInRange_iff_bits a), ?_⟩
  rintro rfl
  refine ⟨rangeOK_native n a, rangeOK_signed_iff.2 ((signedInRange_iff_bits a).2 fun i hlow hhigh => ?_)⟩
  rw [show i = n - 1 by omega]

/-! ### What an ADD writes (R80, R89) -/

/-- The low `n` bits of the typed value are the low `n` bits of `A`. -/
theorem Machine.fieldOf_eq {w n : Nat} (h : n ≤ w) (a : Word) : fieldOf w n a = a.toNat % 2 ^ n :=
  Nat.mod_mod_of_dvd _ (Nat.pow_dvd_pow 2 h)

/-- What the insertion sets is what `fieldSets` says. -/
theorem getLsbD_read_insert_eq_fieldSets (m : Memory) (base p u n a : Nat) {j : Nat} (hj : j < 8) :
    ((m.insert base p u n).read a).getLsbD j = ((m.read a).getLsbD j || fieldSets base p n u a j) := by
  rw [Memory.getLsbD_read_insert m base p u n a j hj, fieldSets]
  simp only [Bool.decide_and, Bool.and_assoc]

/-- An insertion of bits that remain, inside `BUF`, is answered, and ORs its field (R58, R80, R84). -/
theorem Machine.insertWindow_answered {n : Nat} (u : Nat) {s : State} (hn : n ≤ s.k.remaining)
    (hr : s.k.reaches s.cfg.bufBytes n) : ∃ t, insertWindow n u s = .next t ∧ PackerAnswered s t n u :=
  ⟨_, insertWindow_eq_next.2 ⟨hr, rfl⟩, s.k.advance_pos_toNat n hn, rfl, rfl, rfl, rfl, rfl, rfl,
    fun a _ => getLsbD_read_insert_eq_fieldSets _ _ _ _ _ a, fun _ => Memory.read_insert_outside _ _⟩

/-- An integer ADD of a field that can be moved, with a value in range or no range check, is its insertion. -/
theorem exec_addInteger_eq_insertWindow {i : Instr} {signed : Bool} {w n : Nat} {s : State}
    (hr : i.request = .integer signed w n) (hp : i.isParser = false) (hw : 1 ≤ n ∧ n ≤ w) (hn : n ≤ s.k.remaining)
    (hv : rangeOK signed w n i.addend = true ∨ s.cfg.chkRange = false) :
    exec i s = insertWindow n (i.addend.toNat % 2 ^ n) s := by
  rw [exec_addInteger hr hp, addInteger, checkAdd_eq_pass.2 ⟨hw, hn, hv⟩, fieldOf_eq hw.2]
  rfl

/-- Settles O28: the checks pass and the low `n` bits of `A` are inserted. -/
theorem unsignedAddsOrTheField : Obligations.UnsignedAddsOrTheField := by
  unfold Obligations.UnsignedAddsOrTheField
  intro w mk hmk s value n hc hv
  obtain ⟨hr, hp, ha⟩ := unsignedAdds_request hmk value n
  obtain ⟨hw, hn, hreach⟩ := hc
  rw [exec_addInteger_eq_insertWindow hr hp hw hn (by rwa [ha, rangeOK_unsigned_iff]), ha]
  exact insertWindow_answered _ hn hreach

/-- Settles O29: as for the unsigned ADDs, with the signed range. -/
theorem signedAddsOrTheField : Obligations.SignedAddsOrTheField := by
  unfold Obligations.SignedAddsOrTheField
  intro w mk hmk s value n hc hv
  obtain ⟨hr, hp, ha⟩ := signedAdds_request hmk value n
  obtain ⟨hw, hn, hreach⟩ := hc
  rw [exec_addInteger_eq_insertWindow hr hp hw hn (by rwa [ha, rangeOK_signed_iff]), ha]
  exact insertWindow_answered _ hn hreach

theorem exec_addPattern_eq_insertWindow {i : Instr} {w : Nat} {s : State} (hr : i.request = .float w)
    (hp : i.isParser = false) (hb : w ≤ s.k.remaining) : exec i s = insertWindow w (i.addend.toNat % 2 ^ w) s := by
  rw [exec_addPattern hr hp, addPattern, checkBounds_eq_pass.2 hb]
  rfl

/-- Settles O30: the one check passes and the pattern is inserted. -/
theorem floatAddsOrThePattern : Obligations.FloatAddsOrThePattern := by
  unfold Obligations.FloatAddsOrThePattern
  intro w mk hmk s pattern hc
  obtain ⟨hr, hp, ha⟩ := floatAdds_request hmk pattern
  obtain ⟨-, hn, hreach⟩ := hc
  rw [exec_addPattern_eq_insertWindow hr hp hn, ha]
  exact insertWindow_answered _ hn hreach

/-- An integer ADD of legal width for bits that remain, with a value out of range. -/
theorem exec_addInteger_range {i : Instr} {signed : Bool} {w n : Nat} {s : State} (hr : i.request = .integer signed w n)
    (hp : i.isParser = false) (hn : 1 ≤ n ∧ n ≤ w) (hb : n ≤ s.k.remaining)
    (hv : ¬rangeOK signed w n i.addend = true) (hc : s.cfg.chkRange = true) :
    exec i s = .next (s.failed .einvalidArg) := by
  have hfits : i.valueFits = false := by
    rw [Instr.valueFits_integer hr, hp, Bool.false_or]
    exact Bool.eq_false_of_not_eq_true hv
  refine exec_eq_einvalidArg_of_value ((Instr.widthLegal_integer hr).2 hn) ?_ hfits hc
  rwa [Instr.bits_integer hr, Instr.cursorOf_packer hp]

/-- Settles O31: the failures of a transfer, on the packer's cursor, and then the range check. -/
theorem addsFailInOrder : Obligations.AddsFailInOrder := by
  unfold Obligations.AddsFailInOrder
  refine ⟨fun w mk hmk s value n => ?_, fun w mk hmk s value n h1 hn hb hv hc => ?_,
    fun w mk hmk s value n h1 hn hb hv hc => ?_, fun w mk hmk s pattern => ?_⟩
  · have hreq : ∃ signed, (mk value n).request = .integer signed w n ∧ (mk value n).isParser = false := by
      rcases List.mem_append.1 hmk with h | h
      · obtain ⟨hr, hp, -⟩ := unsignedAdds_request h value n
        exact ⟨false, hr, hp⟩
      · obtain ⟨hr, hp, -⟩ := signedAdds_request h value n
        exact ⟨true, hr, hp⟩
    obtain ⟨signed, hr, hp⟩ := hreq
    rw [← Instr.cursorOf_packer hp s]
    exact ⟨exec_integer_width hr, exec_integer_bounds hr⟩
  · obtain ⟨hr, hp, ha⟩ := unsignedAdds_request hmk value n
    exact exec_addInteger_range hr hp ⟨h1, hn⟩ hb (by rwa [ha, rangeOK_unsigned_iff]) hc
  · obtain ⟨hr, hp, ha⟩ := signedAdds_request hmk value n
    exact exec_addInteger_range hr hp ⟨h1, hn⟩ hb (by rwa [ha, rangeOK_signed_iff]) hc
  · obtain ⟨hr, hp, -⟩ := floatAdds_request hmk pattern
    rw [← Instr.cursorOf_packer hp s]
    exact ⟨exec_float_bounds hr, exec_float_ne_einvalidArg hr⟩

/-! ### The round trip (R90) -/

/-- The field is inserted over zeros and read back from the same place. -/
theorem exec_insert_then_extract {add ext : Instr} {signed : Bool} {n u : Nat} {s : State}
    (hadd : exec add s = insertWindow n u s)
    (hext : ∀ t : State, t.cfg = s.cfg → t.p = s.p → exec ext t = extractWindow signed n t)
    (hk : s.k.reaches s.cfg.bufBytes n) (hbase : s.p.base = s.k.base) (hpos : s.p.pos = s.k.pos)
    (hzero : s.buf.window s.k.base.toNat s.k.pos.toNat n = 0) (hu : u < 2 ^ n) :
    ∃ t t', exec add s = .next t ∧ exec ext t = .next t' ∧
      t'.outbox = s.outbox ++ [⟨.ok, 0⟩, ⟨.ok, resultOf signed n u⟩] := by
  obtain ⟨t, ht, hcfg, hp, hbuf, hout⟩ : ∃ t, exec add s = .next t ∧ t.cfg = s.cfg ∧ t.p = s.p ∧
      t.buf = s.buf.insert s.k.base.toNat s.k.pos.toNat u n ∧ t.outbox = s.outbox ++ [⟨.ok, 0⟩] :=
    ⟨_, hadd.trans (insertWindow_eq_next.2 ⟨hk, rfl⟩), rfl, rfl, rfl, rfl⟩
  have hreach : t.p.reaches t.cfg.bufBytes n := by rwa [hp, hcfg, Cursor.reaches, hbase, hpos]
  have hread : t.buf.window t.p.base.toNat t.p.pos.toNat n = u := by
    rw [hbuf, hp, hbase, hpos, Memory.window_insert_of_zero hu hzero]
  refine ⟨t, _, ht, (hext t hcfg hp).trans (extractWindow_eq_next.2 ⟨hreach, rfl⟩), ?_⟩
  rw [State.respond_outbox, hread, hout, List.append_assoc]
  rfl

/-- A number in the range of `n` bits keeps its value in `n` bits. -/
theorem toInt_signExtend_of_range {w n : Nat} {x : BitVec w} (h1 : 1 ≤ n) (hn : n ≤ w)
    (hlow : -(2 ^ (n - 1) : Int) ≤ x.toInt) (hhigh : x.toInt ≤ 2 ^ (n - 1) - 1) : (x.signExtend n).toInt = x.toInt := by
  rw [BitVec.toInt_signExtend_eq_toInt_bmod_of_le x hn, ← BitVec.toInt_ofInt,
    BitVec.toInt_ofInt_eq_self h1 hlow (Int.lt_of_le_sub_one hhigh)]

section extension
variable {w n : Nat} {value : Word} (hn : n ≤ w)
include hn

theorem field_eq_setWidth_mod : value.toNat % 2 ^ n = (value.setWidth w).toNat % 2 ^ n := by
  rw [← lowBits_eq]
  exact (fieldOf_eq hn value).symm

/-- The field of an unsigned value in range is the value. -/
theorem resultOf_unsigned_field (hv : unsignedInRange w n value) :
    resultOf false n (value.toNat % 2 ^ n) = (value.setWidth w).setWidth 64 := by
  have hlt : (value.setWidth w).toNat < 2 ^ n := Nat.lt_of_le_sub_one (Nat.two_pow_pos n) hv
  rw [field_eq_setWidth_mod hn, Nat.mod_eq_of_lt hlt, resultOf, if_neg Bool.false_ne_true, BitVec.ofNat_toNat]

/-- The field of a signed value in range is a two's-complement pattern of the value. -/
theorem resultOf_signed_field (h1 : 1 ≤ n) (hv : signedInRange w n value) :
    resultOf true n (value.toNat % 2 ^ n) = (value.setWidth w).signExtend 64 := by
  have hpattern : BitVec.ofNat n (value.toNat % 2 ^ n) = (value.setWidth w).signExtend n := by
    refine BitVec.eq_of_toNat_eq ?_
    rw [BitVec.signExtend_eq_setWidth_of_le _ hn, BitVec.toNat_ofNat, BitVec.toNat_setWidth, Nat.mod_mod,
      field_eq_setWidth_mod hn]
  rw [resultOf_signed (Nat.mod_lt _ (Nat.two_pow_pos n)), hpattern, BitVec.signExtend,
    toInt_signExtend_of_range h1 hn hv.1 hv.2, BitVec.signExtend]

end extension

theorem integerPairs_request {signed : Bool} {w : Nat} {add : Word → Nat → Instr} {ext : Nat → Instr}
    (h : (signed, w, add, ext) ∈ integerPairs) (value : Word) (n : Nat) :
    ((add value n).request = .integer signed w n ∧ (add value n).isParser = false ∧ (add value n).addend = value) ∧
      (ext n).request = .integer signed w n ∧ (ext n).isParser = true := by
  simp only [integerPairs, List.mem_cons, Prod.mk.injEq, List.not_mem_nil, or_false] at h
  rcases h with ⟨rfl, rfl, rfl, rfl⟩ | ⟨rfl, rfl, rfl, rfl⟩ | ⟨rfl, rfl, rfl, rfl⟩ | ⟨rfl, rfl, rfl, rfl⟩ |
    ⟨rfl, rfl, rfl, rfl⟩ | ⟨rfl, rfl, rfl, rfl⟩ | ⟨rfl, rfl, rfl, rfl⟩ | ⟨rfl, rfl, rfl, rfl⟩ <;>
    exact ⟨⟨rfl, rfl, rfl⟩, rfl, rfl⟩

theorem floatPairs_request {w : Nat} {add : Word → Instr} {ext : Instr} (h : (w, add, ext) ∈ floatPairs)
    (pattern : Word) :
    ((add pattern).request = .float w ∧ (add pattern).isParser = false ∧ (add pattern).addend = pattern) ∧
      ext.request = .float w ∧ ext.isParser = true := by
  simp only [floatPairs, List.mem_cons, Prod.mk.injEq, List.not_mem_nil, or_false] at h
  rcases h with ⟨rfl, rfl, rfl⟩ | ⟨rfl, rfl, rfl⟩ <;> exact ⟨⟨rfl, rfl, rfl⟩, rfl, rfl⟩

/-- Settles O39: the window over zeros is the field, and the field of a value in range extends to the value. -/
theorem addThenExtractReturnsTheValue : Obligations.AddThenExtractReturnsTheValue := by
  unfold Obligations.AddThenExtractReturnsTheValue
  refine ⟨fun signed w add ext hmem s value n hk hp hbase hpos hzero hv => ?_,
    fun w add ext hmem s pattern hk hp hbase hpos hzero => ?_⟩
  · obtain ⟨⟨hr, hadd, ha⟩, hrx, hext⟩ := integerPairs_request hmem value n
    obtain ⟨hw, hnk, hreach⟩ := hk
    obtain ⟨-, hnp, -⟩ := hp
    have hrange : rangeOK signed w n (add value n).addend = true := by
      cases signed <;> rw [ha]
      · exact rangeOK_unsigned_iff.2 hv
      · exact rangeOK_signed_iff.2 hv
    have hresult : resultOf signed n (value.toNat % 2 ^ n) =
        if signed then (value.setWidth w).signExtend 64 else (value.setWidth w).setWidth 64 := by
      cases signed
      · exact resultOf_unsigned_field hw.2 hv
      · exact resultOf_signed_field hw.2 hw.1 hv
    have hinsert := exec_addInteger_eq_insertWindow hr hadd hw hnk (.inl hrange)
    rw [ha] at hinsert
    rw [← hresult]
    exact exec_insert_then_extract hinsert
      (fun t _ ht => exec_extractInteger_eq_extractWindow hrx hext hw (by rwa [ht])) hreach hbase hpos hzero
      (Nat.mod_lt _ (Nat.two_pow_pos n))
  · obtain ⟨⟨hr, hadd, ha⟩, hrx, hext⟩ := floatPairs_request hmem pattern
    obtain ⟨-, hnk, hreach⟩ := hk
    obtain ⟨-, hnp, -⟩ := hp
    have hinsert := exec_addPattern_eq_insertWindow hr hadd hnk
    rw [ha] at hinsert
    rw [← resultOf_unsigned_field (Nat.le_refl w) (Nat.le_sub_one_of_lt (BitVec.isLt _))]
    exact exec_insert_then_extract hinsert
      (fun t _ ht => exec_extractPattern_eq_extractWindow hrx hext (by rwa [ht])) hreach hbase hpos hzero
      (Nat.mod_lt _ (Nat.two_pow_pos w))

end Sys2Proof
